-- ==== Sys2Proof/Word.lean ====
section
/-! DEFINITION. The one word type of the CORE: a memory cell, an operand byte, the flags byte
(spec/00_scope.md R7, R9). Register values, addresses and the program counter are integers (R10) and need no word type. -/

namespace Sys2Proof

/-- A byte: an integer in 0..255 (R9). -/
abbrev Byte := BitVec 8

end Sys2Proof
end

