-- ==== Sys2Proof/Config.lean ====
section
/-! DEFINITION. What is fixed for the CORE: the numbers the source fixes (spec/00_scope.md R7) and the four
parameters it leaves open (R8). A parameter's DEFAULT VALUES stand in Sys2Proof/Decode.lean. -/

namespace Sys2Proof

/-- `MEM_SIZE` (R7). -/
abbrev memSize : Nat := 256

/-- The highest memory address, 255 (R7, R30). -/
abbrev lastAddress : Int := 255

/-- `SP_INDEX`: register 7 is the stack pointer (R7, R19). -/
abbrev spIndex : Fin 8 := 7

/-- `SP_RESET` = 0xF4 (R7). -/
abbrev spReset : Int := 0xF4

/-- `PC_RESET` (R7). -/
abbrev pcReset : Int := 0

/-- The 24 mnemonics that `OPCODE_MAP` gives a byte (spec/30_encoding.md R47), in that table's order. -/
inductive Opcode where
  | hlt | ret | push | pop | prn | call | jmp | jeq | jne
  | inc | dec | not
  | ldi
  | add | sub | mul | div | mod | cmp | and | or | xor | shl | shr
  deriving DecidableEq, Repr

/-- Every mnemonic once, in the order of R47. -/
def Opcode.all : List Opcode :=
  [.hlt, .ret, .push, .pop, .prn, .call, .jmp, .jeq, .jne, .inc, .dec, .not, .ldi,
   .add, .sub, .mul, .div, .mod, .cmp, .and, .or, .xor, .shl, .shr]

/-- `OPCODE_MAP` (R8): a byte for every mnemonic. The spec asks for an injective map: `OpcodeMap.injective`. -/
structure OpcodeMap where
  hlt : Byte
  ret : Byte
  push : Byte
  pop : Byte
  prn : Byte
  call : Byte
  jmp : Byte
  jeq : Byte
  jne : Byte
  inc : Byte
  dec : Byte
  not : Byte
  ldi : Byte
  add : Byte
  sub : Byte
  mul : Byte
  div : Byte
  mod : Byte
  cmp : Byte
  and : Byte
  or : Byte
  xor : Byte
  shl : Byte
  shr : Byte
  deriving DecidableEq, Repr

/-- The byte the map gives a mnemonic. -/
def OpcodeMap.byteOf (m : OpcodeMap) : Opcode → Byte
  | .hlt => m.hlt
  | .ret => m.ret
  | .push => m.push
  | .pop => m.pop
  | .prn => m.prn
  | .call => m.call
  | .jmp => m.jmp
  | .jeq => m.jeq
  | .jne => m.jne
  | .inc => m.inc
  | .dec => m.dec
  | .not => m.not
  | .ldi => m.ldi
  | .add => m.add
  | .sub => m.sub
  | .mul => m.mul
  | .div => m.div
  | .mod => m.mod
  | .cmp => m.cmp
  | .and => m.and
  | .or => m.or
  | .xor => m.xor
  | .shl => m.shl
  | .shr => m.shr

/-- R8: `OPCODE_MAP` is injective, so that a byte names at most one mnemonic. -/
abbrev OpcodeMap.injective (m : OpcodeMap) : Prop := (Opcode.all.map m.byteOf).Nodup

/-- `GPR_RESET` (R8): the reset values of r0..r6. -/
structure GprReset where
  r0 : Int
  r1 : Int
  r2 : Int
  r3 : Int
  r4 : Int
  r5 : Int
  r6 : Int
  deriving DecidableEq, Repr

/-- The model's configuration: the four parameters of R8. -/
structure Config where
  opcodeMap : OpcodeMap
  routeAllAlu : Bool
  retFromStack : Bool
  gprReset : GprReset
  deriving DecidableEq, Repr

end Sys2Proof
end

