-- ==== Sys2Proof/Syntax.lean ====
section
/-! DEFINITION. The instructions of the CORE: one constructor per row of spec/opcode_table.json, with the operand
bytes its format uses (spec/30_encoding.md R43). A register field is kept as the whole operand byte, because R44 checks the
whole byte when the instruction runs. A byte the format ignores is no part of the instruction. -/

namespace Sys2Proof

/-- `ra`, `rb` are the operand bytes A and B where the format marks them as register indices. -/
inductive Instr where
  /-- F0, spec/42_control.md R82. -/
  | hlt
  /-- FR, R77. With `RET_FROM_STACK` the byte `ra` is ignored. -/
  | ret (ra : Byte)
  /-- FR, spec/41_transfer.md R73. -/
  | push (ra : Byte)
  /-- FR, R74. -/
  | pop (ra : Byte)
  /-- FR, R72. -/
  | prn (ra : Byte)
  /-- FR, spec/42_control.md R76. -/
  | call (ra : Byte)
  /-- FR, R78. -/
  | jmp (ra : Byte)
  /-- FR, R80. -/
  | jeq (ra : Byte)
  /-- FR, R81. -/
  | jne (ra : Byte)
  /-- FRX, spec/40_alu.md R62. -/
  | inc (ra : Byte)
  /-- FRX, R63. -/
  | dec (ra : Byte)
  /-- FRX, R66. -/
  | not (ra : Byte)
  /-- FRI, spec/41_transfer.md R71. -/
  | ldi (ra imm : Byte)
  /-- FRR, spec/40_alu.md R57. -/
  | add (ra rb : Byte)
  /-- FRR, R58. -/
  | sub (ra rb : Byte)
  /-- FRR, R59. -/
  | mul (ra rb : Byte)
  /-- FRR, R60. -/
  | div (ra rb : Byte)
  /-- FRR, R61. -/
  | mod (ra rb : Byte)
  /-- FRR, spec/42_control.md R79. -/
  | cmp (ra rb : Byte)
  /-- FRR, spec/40_alu.md R65. -/
  | and (ra rb : Byte)
  /-- FRR, R70. -/
  | or (ra rb : Byte)
  /-- FRR, R67. -/
  | xor (ra rb : Byte)
  /-- FRR, R68. -/
  | shl (ra rb : Byte)
  /-- FRR, R69. -/
  | shr (ra rb : Byte)
  /-- The table's row ILLEGAL: an opcode byte no mnemonic of the map has (spec/30_encoding.md R50). -/
  | illegal (ir : Byte)
  deriving DecidableEq, Repr

/-- The mnemonic an instruction is a row of; an undecodable byte has none. -/
def Instr.opcode? : Instr → Option Opcode
  | .hlt => some .hlt
  | .ret _ => some .ret
  | .push _ => some .push
  | .pop _ => some .pop
  | .prn _ => some .prn
  | .call _ => some .call
  | .jmp _ => some .jmp
  | .jeq _ => some .jeq
  | .jne _ => some .jne
  | .inc _ => some .inc
  | .dec _ => some .dec
  | .not _ => some .not
  | .ldi _ _ => some .ldi
  | .add _ _ => some .add
  | .sub _ _ => some .sub
  | .mul _ _ => some .mul
  | .div _ _ => some .div
  | .mod _ _ => some .mod
  | .cmp _ _ => some .cmp
  | .and _ _ => some .and
  | .or _ _ => some .or
  | .xor _ _ => some .xor
  | .shl _ _ => some .shl
  | .shr _ _ => some .shr
  | .illegal _ => none

end Sys2Proof
end

