-- ==== Sys2Proof/WellFormed.lean ====
section
/-! DEFINITION. When an instruction is well formed in a configuration: its mnemonic is decodable there
(spec/30_encoding.md R49), every field its format marks as a register is an index 0..7 (R44), and an illegal byte is a byte
no mnemonic has (R50). An ill-formed instruction still has a meaning: the fault the spec gives it. -/

namespace Sys2Proof

/-- The five operations of the ALU table that the execution loop routes only with `ROUTE_ALL_ALU` (spec/40_alu.md R53). -/
def Opcode.routedOnRequest : Opcode → Bool
  | .inc | .dec | .sub | .div | .shr => true
  | .hlt | .ret | .push | .pop | .prn | .call | .jmp | .jeq | .jne | .not | .ldi
  | .add | .mul | .mod | .cmp | .and | .or | .xor | .shl => false

/-- `Decodable(config)` of R49. -/
def Config.decodable (c : Config) (op : Opcode) : Bool := !op.routedOnRequest || c.routeAllAlu

/-- `n ≤ 7` (R44): the operand byte is a register index. -/
abbrev isRegIndex (n : Byte) : Prop := n.toNat < 8

/-- The operand bytes that the instruction's format marks as register fields, in the order R44 checks them. A field
marked "ignored" is not listed, nor is RET's with `RET_FROM_STACK` (spec/42_control.md R77). -/
def Instr.regFields (c : Config) : Instr → List Byte
  | .hlt => []
  | .ret a => if c.retFromStack then [] else [a]
  | .push a => [a]
  | .pop a => [a]
  | .prn a => [a]
  | .call a => [a]
  | .jmp a => [a]
  | .jeq a => [a]
  | .jne a => [a]
  | .inc a => [a]
  | .dec a => [a]
  | .not a => [a]
  | .ldi a _ => [a]
  | .add a b => [a, b]
  | .sub a b => [a, b]
  | .mul a b => [a, b]
  | .div a b => [a, b]
  | .mod a b => [a, b]
  | .cmp a b => [a, b]
  | .and a b => [a, b]
  | .or a b => [a, b]
  | .xor a b => [a, b]
  | .shl a b => [a, b]
  | .shr a b => [a, b]
  | .illegal _ => []

/-- The instruction has an encoding: only `illegal ir` with `ir` a mapped byte has none, because the decoder reads that
byte as its mnemonic. -/
def Instr.encodable (m : OpcodeMap) : Instr → Bool
  | .illegal ir => Opcode.all.all fun op => m.byteOf op != ir
  | .hlt | .ret _ | .push _ | .pop _ | .prn _ | .call _ | .jmp _ | .jeq _ | .jne _
  | .inc _ | .dec _ | .not _ | .ldi _ _ | .add _ _ | .sub _ _ | .mul _ _ | .div _ _ | .mod _ _ | .cmp _ _
  | .and _ _ | .or _ _ | .xor _ _ | .shl _ _ | .shr _ _ => true

/-- The active configuration decodes the instruction's mnemonic (R49); an undecodable byte is never decoded. -/
def Instr.decodable (c : Config) (i : Instr) : Bool :=
  match i.opcode? with
  | some op => c.decodable op
  | none => false

/-- Well formed: encodable (R50), its mnemonic decodable in the configuration unless it is the row ILLEGAL (R49), and its
register fields in 0..7 (R44). -/
def Instr.wellFormed (c : Config) (i : Instr) : Bool :=
  i.encodable c.opcodeMap && (i.opcode? == none || i.decodable c) && (i.regFields c).all fun n => decide (isRegIndex n)

end Sys2Proof
end

