-- ==== Sys2Proof/Decode.lean ====
section
/-! DEFINITION. The fetch window, the default opcode map, the decoder (exact match on the opcode byte,
spec/30_encoding.md R49) and after it the encoder (R43, R47). -/

namespace Sys2Proof

/-- The three-byte fetch window of a step: IR at pc, A at pc + 1, B at pc + 2 (R42; spec/10_state.md R27). -/
structure Window where
  ir : Byte
  a : Byte
  b : Byte
  deriving DecidableEq, Repr

/-- The window's bytes in the order they stand in memory (spec/20_memory.md R34). -/
def Window.bytes (w : Window) : List Byte := [w.ir, w.a, w.b]

/-- The default `OPCODE_MAP`: the table of R47. PRESUMED: the spec takes these values from general knowledge of the LS-8
architecture, not from its source (D2; log 2). -/
def OpcodeMap.ls8 : OpcodeMap where
  hlt := 0b00000001
  ret := 0b00010001
  push := 0b01000101
  pop := 0b01000110
  prn := 0b01000111
  call := 0b01010000
  jmp := 0b01010100
  jeq := 0b01010101
  jne := 0b01010110
  inc := 0b01100101
  dec := 0b01100110
  not := 0b01101001
  ldi := 0b10000010
  add := 0b10100000
  sub := 0b10100001
  mul := 0b10100010
  div := 0b10100011
  mod := 0b10100100
  cmp := 0b10100111
  and := 0b10101000
  or := 0b10101010
  xor := 0b10101011
  shl := 0b10101100
  shr := 0b10101101

/-- The default configuration of spec/00_scope.md R8. DESIGN CHOICE of the spec: `GPR_RESET` 0 (D5; log 6). -/
def Config.default : Config where
  opcodeMap := .ls8
  routeAllAlu := false
  retFromStack := false
  gprReset := { r0 := 0, r1 := 0, r2 := 0, r3 := 0, r4 := 0, r5 := 0, r6 := 0 }

/-- Exact-match lookup of an opcode byte (R49: no range test, no bit-field test). -/
def OpcodeMap.lookup (m : OpcodeMap) (ir : Byte) : Option Opcode :=
  Opcode.all.find? fun op => m.byteOf op == ir

/-- The instruction a mnemonic forms with the operand bytes its format uses (R43). -/
def Instr.ofOpcode (op : Opcode) (a b : Byte) : Instr :=
  match op with
  | .hlt => .hlt
  | .ret => .ret a
  | .push => .push a
  | .pop => .pop a
  | .prn => .prn a
  | .call => .call a
  | .jmp => .jmp a
  | .jeq => .jeq a
  | .jne => .jne a
  | .inc => .inc a
  | .dec => .dec a
  | .not => .not a
  | .ldi => .ldi a b
  | .add => .add a b
  | .sub => .sub a b
  | .mul => .mul a b
  | .div => .div a b
  | .mod => .mod a b
  | .cmp => .cmp a b
  | .and => .and a b
  | .or => .or a b
  | .xor => .xor a b
  | .shl => .shl a b
  | .shr => .shr a b

/-- The decoder, total on every window. A byte with no mnemonic is the instruction ILLEGAL, named by its byte (R50).
R49's restriction to `Decodable(config)` is made at the head of the meanings of INC, DEC, SUB, DIV and SHR, before any
register check (DESIGN CHOICE, log 5; spec/40_alu.md R58, R60, R62, R63, R69 state it there too). -/
def decode (m : OpcodeMap) (w : Window) : Instr :=
  match m.lookup w.ir with
  | some op => .ofOpcode op w.a w.b
  | none => .illegal w.ir

/-- Why a byte sequence cannot be decoded: it is shorter than the fetch window (R42 reads three bytes always). -/
inductive DecodeError where
  | windowTooShort (length : Nat)
  deriving DecidableEq, Repr

/-- Decoding from a byte sequence, in the order the bytes stand in memory (spec/20_memory.md R34): the instruction and
the bytes after the window. -/
def decodeBytes (m : OpcodeMap) : List Byte → Except DecodeError (Instr × List Byte)
  | ir :: a :: b :: rest => .ok (decode m ⟨ir, a, b⟩, rest)
  | short => .error (.windowTooShort short.length)

/-- The encoder (R43, R47). A byte the format ignores is written as 0 (DESIGN CHOICE, log 23). -/
def encode (m : OpcodeMap) : Instr → Window
  | .hlt => ⟨m.hlt, 0, 0⟩
  | .ret a => ⟨m.ret, a, 0⟩
  | .push a => ⟨m.push, a, 0⟩
  | .pop a => ⟨m.pop, a, 0⟩
  | .prn a => ⟨m.prn, a, 0⟩
  | .call a => ⟨m.call, a, 0⟩
  | .jmp a => ⟨m.jmp, a, 0⟩
  | .jeq a => ⟨m.jeq, a, 0⟩
  | .jne a => ⟨m.jne, a, 0⟩
  | .inc a => ⟨m.inc, a, 0⟩
  | .dec a => ⟨m.dec, a, 0⟩
  | .not a => ⟨m.not, a, 0⟩
  | .ldi a imm => ⟨m.ldi, a, imm⟩
  | .add a b => ⟨m.add, a, b⟩
  | .sub a b => ⟨m.sub, a, b⟩
  | .mul a b => ⟨m.mul, a, b⟩
  | .div a b => ⟨m.div, a, b⟩
  | .mod a b => ⟨m.mod, a, b⟩
  | .cmp a b => ⟨m.cmp, a, b⟩
  | .and a b => ⟨m.and, a, b⟩
  | .or a b => ⟨m.or, a, b⟩
  | .xor a b => ⟨m.xor, a, b⟩
  | .shl a b => ⟨m.shl, a, b⟩
  | .shr a b => ⟨m.shr, a, b⟩
  | .illegal ir => ⟨ir, 0, 0⟩

/-- The window of an instruction whose bits are `w`, bit 0 the least significant bit of the FIRST byte, with every bit
from `nbits` up zero (DEDUCED, log 27). -/
def Window.ofTableWord (nbits w : Nat) : Window :=
  let v := w % 2 ^ nbits
  ⟨BitVec.ofNat 8 v, BitVec.ofNat 8 (v / 2 ^ 8), BitVec.ofNat 8 (v / 2 ^ 16)⟩

/-- What the decoder reads from a word of spec/opcode_table.json, with the default map. It refuses no word: a byte with
no mnemonic is the table's row ILLEGAL. -/
def decodeTableWord (nbits w : Nat) : Option Instr :=
  some (decode Config.default.opcodeMap (.ofTableWord nbits w))

end Sys2Proof
end

