-- ==== Sys2Proof/Machine/State.lean ====
section
/-! DEFINITION. The architectural state of the CORE (spec/10_state.md R16), the fault record (spec/60_exceptions.md R84,
R91), the reasons a step may end without a next state, and the state after reset (R29). Plain data only. -/

namespace Sys2Proof.Machine

/-- The general registers x[0..7] (R17): unbounded integers, none hardwired. r7 is the stack pointer (R19). -/
structure Regs where
  r0 : Int
  r1 : Int
  r2 : Int
  r3 : Int
  r4 : Int
  r5 : Int
  r6 : Int
  r7 : Int
  deriving DecidableEq, Repr

/-- The memory M (spec/20_memory.md R30) as the list of its cells that differ from 0, addresses rising: see `Memory.wf` in
Machine/Ops.lean. -/
abbrev Memory := List Host.Cell

/-- The `info` of an OutOfRangeAccess (R84). -/
inductive RangeInfo where
  /-- A memory address outside 0..255. -/
  | memory (address : Int)
  /-- An operand byte that is no register index. -/
  | register (index : Nat)
  /-- The length of a program image longer than memory. -/
  | load (length : Nat)
  deriving DecidableEq, Repr

/-- The `info` of a ValueOutOfDomain (R84). -/
inductive DomainInfo where
  /-- A stored value that is no byte. -/
  | store (v : Int)
  /-- A negative shift count. -/
  | shift (k : Int)
  /-- A division whose quotient is no integer. -/
  | div (u v : Int)
  deriving DecidableEq, Repr

/-- A fault kind with its `info`: the six kinds of R84 and no other. Each is the SPEC's own fault, entered as a next state
(`State.raise`, R92), never an outcome `Outcome.fault`. -/
inductive FaultCause where
  /-- R85. The opcode is MOD or DIV. -/
  | divideByZero (op : Opcode)
  /-- R86: an opcode that is no key of the ALU's table. No run reaches it (log 29). -/
  | unsupportedOperation (op : Opcode)
  /-- R87. -/
  | outOfRangeAccess (what : RangeInfo)
  /-- R88. -/
  | illegalInstruction (ir : Byte)
  /-- R89. -/
  | emptyReturnLatch
  /-- R90. -/
  | valueOutOfDomain (what : DomainInfo)
  deriving DecidableEq, Repr

/-- The record a fault writes: its kind and info, and the PC of the faulting step (R91). -/
structure FaultRecord where
  cause : FaultCause
  pc : Int
  deriving DecidableEq, Repr

/-- The state of the CORE: the tuple of R16, and `cfg`, the parameters of spec/00_scope.md R8, which no instruction
writes (log 1). -/
structure State where
  /-- The configuration (R8): the model's own field. -/
  cfg : Config
  /-- M (R30). -/
  mem : Memory
  /-- x[0..7] (R17). -/
  regs : Regs
  /-- The program counter (R20). -/
  pc : Int
  /-- FL: L = bit 2, G = bit 1, E = bit 0 (R21). -/
  fl : Byte
  /-- LATCH (R22); `none` is the spec's own empty latch. -/
  latch : Option Int
  /-- RUNNING (R23). -/
  running : Bool
  /-- FAULT (R24); `none` is the spec's own "no fault". -/
  fault : Option FaultRecord
  /-- OUT, oldest element first (R25). -/
  out : List Int
  deriving DecidableEq, Repr

/-- Reasons for a step to end in `Outcome.fault`: NONE. Every fault of this spec clears RUNNING and writes FAULT (R92), so
it is a next state; the closed type without constructors says that no step ends here (log 22; safe: nothing is stopped). -/
inductive Fault where
  deriving DecidableEq, Repr

/-- Reasons for a step to be refused. -/
inductive Refusal where
  /-- An arm of `exec` that has no meaning yet raises it (safe: it claims nothing). No arm does: every row is modelled. -/
  | notModelled (mnemonic : String)
  deriving DecidableEq, Repr

/-- The state after reset in a configuration (spec/10_state.md R29; spec/70_reset_and_hazards.md R102). pc, r7 and RUNNING
are the source's. DESIGN CHOICE of the spec: r0..r6 = `GPR_RESET` (log 6), FL = 0 (log 7), LATCH = none (log 8), memory 0
(log 9), FAULT = none and OUT empty (log 10). -/
def State.resetWith (c : Config) : State where
  cfg := c
  mem := []
  regs :=
    { r0 := c.gprReset.r0, r1 := c.gprReset.r1, r2 := c.gprReset.r2, r3 := c.gprReset.r3
      r4 := c.gprReset.r4, r5 := c.gprReset.r5, r6 := c.gprReset.r6, r7 := spReset }
  pc := pcReset
  fl := 0
  latch := none
  running := true
  fault := none
  out := []

/-- The state after reset in the default configuration. -/
def State.reset : State := State.resetWith Config.default

end Sys2Proof.Machine
end

