-- ==== Sys2Proof/Machine/Operands.lean ====
section
/-! DEFINITION. The operand forms of the CORE: a register field (spec/30_encoding.md R44), the immediate of LDI (R45), and
the integer operators the operations are written with (spec/00_scope.md R10, R13). -/

namespace Sys2Proof.Machine

/-- `RegIndex(n)` (R11, R44): the whole operand byte is the index, and a byte above 7 raises OutOfRangeAccess. -/
def regIndex (n : Byte) : Except FaultCause (Fin 8) :=
  if h : n.toNat < 8 then .ok ⟨n.toNat, h⟩ else .error (.outOfRangeAccess (.register n.toNat))

/-- `zext_8` (R11, R45): the byte as a natural number. -/
def zext8 (b : Byte) : Int := (b.toNat : Int)

/-- The bits of `m` that are 0 in `n`, on natural numbers. -/
def natAndNot (m n : Nat) : Nat := m ^^^ (m &&& n)

/-- `land` of R13 on the two's-complement view of R10. `Int.negSucc m` is `-m - 1`, whose bits are those of `m` inverted. -/
def land : Int → Int → Int
  | .ofNat m, .ofNat n => .ofNat (m &&& n)
  | .ofNat m, .negSucc n => .ofNat (natAndNot m n)
  | .negSucc m, .ofNat n => .ofNat (natAndNot n m)
  | .negSucc m, .negSucc n => .negSucc (m ||| n)

/-- `lor` of R13. -/
def lor : Int → Int → Int
  | .ofNat m, .ofNat n => .ofNat (m ||| n)
  | .ofNat m, .negSucc n => .negSucc (natAndNot n m)
  | .negSucc m, .ofNat n => .negSucc (natAndNot m n)
  | .negSucc m, .negSucc n => .negSucc (m &&& n)

/-- `lxor` of R13. -/
def lxor : Int → Int → Int
  | .ofNat m, .ofNat n => .ofNat (m ^^^ n)
  | .ofNat m, .negSucc n => .negSucc (m ^^^ n)
  | .negSucc m, .ofNat n => .negSucc (m ^^^ n)
  | .negSucc m, .negSucc n => .ofNat (m ^^^ n)

/-- `lnot v = -v - 1` (R13). -/
def lnot (v : Int) : Int := -v - 1

/-- `a fdiv b`: the floor quotient (R13). -/
def fdiv (a b : Int) : Int := Int.fdiv a b

/-- `a fmod b`: the floor remainder, 0 or of the sign of `b` (R13). -/
def fmod (a b : Int) : Int := a - b * fdiv a b

/-- `a shl k = a * 2^k`, for `k ≥ 0` (R13). -/
def shiftLeft (a k : Int) : Int := a * 2 ^ k.toNat

/-- `a shr k = a fdiv 2^k`, for `k ≥ 0` (R13). -/
def shiftRight (a k : Int) : Int := fdiv a (2 ^ k.toNat)

end Sys2Proof.Machine
end

