-- ==== Sys2Proof/Machine/Flags.lean ====
section
/-! DEFINITION. The flags byte FL (spec/10_state.md R21): the one computation that writes it, CMP's (spec/42_control.md R79),
and the one test that reads it, JEQ's and JNE's (R80, R81). The ALU writes no flag (spec/40_alu.md R55). -/

namespace Sys2Proof.Machine

/-- E, bit 0. -/
def flEqual : Byte := 0b001

/-- G, bit 1. -/
def flGreater : Byte := 0b010

/-- L, bit 2. -/
def flLess : Byte := 0b100

/-- R79: the first matching condition in the order less, equal, greater, on the order of ℤ. -/
def compareFlags (u v : Int) : Byte :=
  if u < v then flLess else if u = v then flEqual else flGreater

/-- R80, R81: an exact match on the whole byte, no test of bit 0 (log 26). -/
def isEqualExactly (fl : Byte) : Bool := fl == flEqual

end Sys2Proof.Machine
end

