-- ==== Sys2Proof/Machine/Ops.lean ====
section
/-! DEFINITION. The named operations over memory, registers and the rest of the state, taking a fault, and the fetch.
A meaning is written over these in the `Except FaultCause` order of its pseudocode, and ends in `commit`. -/

namespace Sys2Proof.Machine

/-! ## Memory -/

/-- What a cell that nothing has written reads as: 0 (R29: the spec's own choice D7, DESIGN CHOICE, log 9). -/
def unlistedByte : Byte := 0

/-- The canonical form: addresses strictly rising and inside memory, no cell listed that reads as an unlisted one. -/
abbrev Memory.wf (m : Memory) : Prop :=
  m.Pairwise (fun c d => c.1 < d.1) ∧ ∀ c ∈ m, c.2 ≠ unlistedByte ∧ c.1 < memSize

/-- The byte of one cell. -/
def Memory.read : Memory → Nat → Byte
  | [], _ => unlistedByte
  | (k, w) :: rest, a => if a = k then w else Memory.read rest a

/-- A cell in front of cells with higher addresses, listed only where it differs from an unlisted one. -/
def Memory.cons (a : Nat) (v : Byte) (rest : Memory) : Memory :=
  if v = unlistedByte then rest else (a, v) :: rest

/-- Writing one cell. It keeps the canonical form. -/
def Memory.write : Memory → Nat → Byte → Memory
  | [], a, v => Memory.cons a v []
  | (k, w) :: rest, a, v =>
    if a < k then Memory.cons a v ((k, w) :: rest)
    else if a = k then Memory.cons a v rest
    else (k, w) :: Memory.write rest a v

/-- Writing consecutive cells from an address up. -/
def Memory.writeBytes : Memory → Nat → List Byte → Memory
  | m, _, [] => m
  | m, a, v :: rest => Memory.writeBytes (Memory.write m a v) (a + 1) rest

/-! ## Registers -/

/-- Read of general register `i` (R11 `x[i]`). -/
def Regs.get (r : Regs) (i : Fin 8) : Int :=
  match i with
  | 0 => r.r0
  | 1 => r.r1
  | 2 => r.r2
  | 3 => r.r3
  | 4 => r.r4
  | 5 => r.r5
  | 6 => r.r6
  | 7 => r.r7

/-- Write of general register `i` (R11 `x[i] <- v`): no register is hardwired (R17). -/
def Regs.set (r : Regs) (i : Fin 8) (v : Int) : Regs :=
  match i with
  | 0 => { r with r0 := v }
  | 1 => { r with r1 := v }
  | 2 => { r with r2 := v }
  | 3 => { r with r3 := v }
  | 4 => { r with r4 := v }
  | 5 => { r with r5 := v }
  | 6 => { r with r6 := v }
  | 7 => { r with r7 := v }

/-! ## One field at a time -/

/-- `x[i]`. -/
def State.x (s : State) (i : Fin 8) : Int := s.regs.get i

/-- `x[i] <- v`. -/
def State.setX (s : State) (i : Fin 8) (v : Int) : State := { s with regs := s.regs.set i v }

/-- `SP`: shorthand for `x[7]` (R11). -/
def State.sp (s : State) : Int := s.x spIndex

/-- `pc <- t`: neither checked nor wrapped (R20, R75). -/
def State.setPc (s : State) (t : Int) : State := { s with pc := t }

/-- `pc <- pc + n`: the increment by the instruction's length (spec/30_encoding.md R46). -/
def State.advance (s : State) (n : Int) : State := s.setPc (s.pc + n)

/-- `FL <- v`, of the whole byte. -/
def State.setFl (s : State) (v : Byte) : State := { s with fl := v }

/-- `LATCH <- v`. -/
def State.setLatch (s : State) (v : Int) : State := { s with latch := some v }

/-- `emit(v)`: OUT grows at its end (R25). -/
def State.emit (s : State) (v : Int) : State := { s with out := s.out ++ [v] }

/-- `RUNNING <- false`. -/
def State.halt (s : State) : State := { s with running := false }

/-- The memory replaced by another. -/
def State.setMem (s : State) (m : Memory) : State := { s with mem := m }

/-- The byte of one cell of M. -/
def State.readByte (s : State) (a : Nat) : Byte := s.mem.read a

/-! ## Taking a fault -/

/-- `raise K(info)` (R91, R92): RUNNING becomes false, FAULT takes the kind, the info and the PC, and nothing else
changes: the pc stays at the faulting instruction, no state is saved elsewhere and no handler runs. There is no return from a
fault (R94), so no operation undoes this one. -/
def State.raise (s : State) (k : FaultCause) : State :=
  { s with running := false, fault := some { cause := k, pc := s.pc } }

/-- The end of a step: a completed instruction commits all its writes; a raise commits none of them, and enters the fault
from the state `s` before the instruction (R12, R92). -/
def commit (s : State) (r : Except FaultCause State) : Host.Outcome State Fault Refusal :=
  match r with
  | .ok t => .next t
  | .error k => .next (s.raise k)

/-! ## The memory address unit -/

/-- An address exists (R30). -/
abbrev inMemory (addr : Int) : Prop := 0 ≤ addr ∧ addr ≤ lastAddress

/-- A value is a byte (R32). -/
abbrev isByteValue (v : Int) : Prop := 0 ≤ v ∧ v ≤ 255

/-- `MemRead(addr, 1)` (R31). -/
def State.memRead (s : State) (addr : Int) : Except FaultCause Byte :=
  if inMemory addr then .ok (s.readByte addr.toNat) else .error (.outOfRangeAccess (.memory addr))

/-- `MemWrite(addr, 1, v)` (R32): the address is checked first, then the value, which is never truncated. -/
def State.memWrite (s : State) (addr v : Int) : Except FaultCause State :=
  if ¬ inMemory addr then .error (.outOfRangeAccess (.memory addr))
  else if ¬ isByteValue v then .error (.valueOutOfDomain (.store v))
  else .ok (s.setMem (s.mem.write addr.toNat (BitVec.ofInt 8 v)))

/-! ## The stack (r7, growing toward lower addresses: R19, R33) -/

/-- `x[7] <- x[7] - 1`. -/
def State.decSp (s : State) : State := s.setX spIndex (s.sp - 1)

/-- `x[7] <- x[7] + 1`. -/
def State.incSp (s : State) : State := s.setX spIndex (s.sp + 1)

/-- The cell a push stores to: the stack pointer after its decrement (R33). -/
def State.pushAddress (s : State) : Int := s.decSp.sp

/-- Pop into register `i` (R74, R77): the register is written first and the stack pointer incremented after it, so for
i = 7 the result is the popped byte plus 1. -/
def State.popInto (s : State) (i : Fin 8) : Except FaultCause State := do
  let v ← s.memRead s.sp
  return (s.setX i (zext8 v)).incSp

/-! ## Fetch -/

/-- R42: the reads of IR, A and B in this order, whatever the instruction's length. -/
def State.fetch (s : State) : Except FaultCause Window := do
  let ir ← s.memRead s.pc
  let a ← s.memRead (s.pc + 1)
  let b ← s.memRead (s.pc + 2)
  return ⟨ir, a, b⟩

/-! ## Configuration -/

/-- Decode's restriction to the rows of the active configuration (R49, R50), for an instruction of mnemonic `op`:
outside them its byte is illegal. -/
def State.requireDecodable (s : State) (op : Opcode) : Except FaultCause Unit :=
  if s.cfg.decodable op then .ok () else .error (.illegalInstruction (s.cfg.opcodeMap.byteOf op))

end Sys2Proof.Machine
end

