-- ==== Sys2Proof/Machine/Alu.lean ====
section
/-! DEFINITION. The ALU dispatch and the 13 ALU instructions (spec/40_alu.md). -/

namespace Sys2Proof.Machine

/-- The ALU's dispatch table `f_op` (R54), one arm per mnemonic: exactly 14 keys (R57 to R70, with the table's own CMP entry
R64, which no instruction reaches), and UnsupportedOperation for every other opcode (R86). A unary operation ignores `v`. -/
def aluFunction (op : Opcode) (u v : Int) : Except FaultCause Int :=
  match op with
  | .add => .ok (u + v)
  | .sub => .ok (u - v)
  | .mul => .ok (u * v)
  | .div =>
    if v = 0 then .error (.divideByZero .div)
    else if fmod u v ≠ 0 then .error (.valueOutOfDomain (.div u v))
    else .ok (fdiv u v)
  | .mod => if v = 0 then .error (.divideByZero .mod) else .ok (fmod u v)
  | .inc => .ok (u + 1)
  | .dec => .ok (u - 1)
  | .cmp => .ok (u + v)
  | .and => .ok (land u v)
  | .not => .ok (lnot u)
  | .xor => .ok (lxor u v)
  | .shl => if v < 0 then .error (.valueOutOfDomain (.shift v)) else .ok (shiftLeft u v)
  | .shr => if v < 0 then .error (.valueOutOfDomain (.shift v)) else .ok (shiftRight u v)
  | .or => .ok (lor u v)
  | .hlt => .error (.unsupportedOperation .hlt)
  | .ret => .error (.unsupportedOperation .ret)
  | .push => .error (.unsupportedOperation .push)
  | .pop => .error (.unsupportedOperation .pop)
  | .prn => .error (.unsupportedOperation .prn)
  | .call => .error (.unsupportedOperation .call)
  | .jmp => .error (.unsupportedOperation .jmp)
  | .jeq => .error (.unsupportedOperation .jeq)
  | .jne => .error (.unsupportedOperation .jne)
  | .ldi => .error (.unsupportedOperation .ldi)

/-- `ALU.apply(op, a, b)` (R54): both operands are read, then x[a] is written, and nothing else. -/
def State.aluApply (s : State) (op : Opcode) (a b : Fin 8) : Except FaultCause State := do
  let v ← aluFunction op (s.x a) (s.x b)
  return s.setX a v

/-- `ALUInstr(op)` of a binary operation (R55): decodable in the configuration (R53), A checked, then B, the operation,
pc + 3. -/
def aluBinary (op : Opcode) (ra rb : Byte) (s : State) : Except FaultCause State := do
  s.requireDecodable op
  let a ← regIndex ra
  let b ← regIndex rb
  let t ← s.aluApply op a b
  return t.advance 3

/-- `ALUInstr(op)` of a unary operation (R55): B is not checked, and `b` is a placeholder that `f_op` does not read. -/
def aluUnary (op : Opcode) (ra : Byte) (s : State) : Except FaultCause State := do
  s.requireDecodable op
  let a ← regIndex ra
  let t ← s.aluApply op a a
  return t.advance 3

/-- ADD (R57). -/
def execAdd (ra rb : Byte) (s : State) : Host.Outcome State Fault Refusal := commit s (aluBinary .add ra rb s)

/-- SUB (R58). -/
def execSub (ra rb : Byte) (s : State) : Host.Outcome State Fault Refusal := commit s (aluBinary .sub ra rb s)

/-- MUL (R59). -/
def execMul (ra rb : Byte) (s : State) : Host.Outcome State Fault Refusal := commit s (aluBinary .mul ra rb s)

/-- DIV (R60). -/
def execDiv (ra rb : Byte) (s : State) : Host.Outcome State Fault Refusal := commit s (aluBinary .div ra rb s)

/-- MOD (R61). -/
def execMod (ra rb : Byte) (s : State) : Host.Outcome State Fault Refusal := commit s (aluBinary .mod ra rb s)

/-- INC (R62). -/
def execInc (ra : Byte) (s : State) : Host.Outcome State Fault Refusal := commit s (aluUnary .inc ra s)

/-- DEC (R63). -/
def execDec (ra : Byte) (s : State) : Host.Outcome State Fault Refusal := commit s (aluUnary .dec ra s)

/-- AND (R65). -/
def execAnd (ra rb : Byte) (s : State) : Host.Outcome State Fault Refusal := commit s (aluBinary .and ra rb s)

/-- NOT (R66). -/
def execNot (ra : Byte) (s : State) : Host.Outcome State Fault Refusal := commit s (aluUnary .not ra s)

/-- XOR (R67). -/
def execXor (ra rb : Byte) (s : State) : Host.Outcome State Fault Refusal := commit s (aluBinary .xor ra rb s)

/-- SHL (R68). -/
def execShl (ra rb : Byte) (s : State) : Host.Outcome State Fault Refusal := commit s (aluBinary .shl ra rb s)

/-- SHR (R69). -/
def execShr (ra rb : Byte) (s : State) : Host.Outcome State Fault Refusal := commit s (aluBinary .shr ra rb s)

/-- OR (R70). -/
def execOr (ra rb : Byte) (s : State) : Host.Outcome State Fault Refusal := commit s (aluBinary .or ra rb s)

end Sys2Proof.Machine
end

