-- ==== Sys2Proof/Machine/Control.lean ====
section
/-! DEFINITION. Control transfer, compare and halt (spec/42_control.md), and the undecodable byte (spec/30_encoding.md
R50). -/

namespace Sys2Proof.Machine

/-- CALL (R76): the latch and the stack both get pc + 2, and x[a] is read after the push. -/
def execCall (ra : Byte) (s : State) : Host.Outcome State Fault Refusal :=
  commit s do
    let a ← regIndex ra
    let ret := s.pc + 2
    let t ← (s.setLatch ret).decSp.memWrite s.pushAddress ret
    return t.setPc (t.x a)

/-- RET in the default configuration (R77): pop into ra, then the pc from the latch, which is not cleared. -/
def retFromLatch (ra : Byte) (s : State) : Except FaultCause State := do
  let a ← regIndex ra
  let t ← s.popInto a
  match t.latch with
  | none => .error .emptyReturnLatch
  | some target => return t.setPc target

/-- RET with `RET_FROM_STACK` (R77): the popped byte is the pc. -/
def retFromStack (s : State) : Except FaultCause State := do
  let v ← s.memRead s.sp
  return s.incSp.setPc (zext8 v)

/-- RET (R77). With `RET_FROM_STACK` the operand byte is ignored. -/
def execRet (ra : Byte) (s : State) : Host.Outcome State Fault Refusal :=
  commit s (if s.cfg.retFromStack then retFromStack s else retFromLatch ra s)

/-- JMP (R78). -/
def execJmp (ra : Byte) (s : State) : Host.Outcome State Fault Refusal :=
  commit s do
    let a ← regIndex ra
    return s.setPc (s.x a)

/-- CMP (R79). -/
def execCmp (ra rb : Byte) (s : State) : Host.Outcome State Fault Refusal :=
  commit s do
    let a ← regIndex ra
    let b ← regIndex rb
    return (s.setFl (compareFlags (s.x a) (s.x b))).advance 3

/-- JEQ (R80): the field is checked on both paths. -/
def execJeq (ra : Byte) (s : State) : Host.Outcome State Fault Refusal :=
  commit s do
    let a ← regIndex ra
    return s.setPc (if isEqualExactly s.fl then s.x a else s.pc + 2)

/-- JNE (R81): the field is checked on both paths. -/
def execJne (ra : Byte) (s : State) : Host.Outcome State Fault Refusal :=
  commit s do
    let a ← regIndex ra
    return s.setPc (if isEqualExactly s.fl then s.pc + 2 else s.x a)

/-- HLT (R82). -/
def execHlt (s : State) : Host.Outcome State Fault Refusal :=
  commit s (.ok (s.halt.advance 1))

/-- ILLEGAL (R50, R88): IllegalInstruction(IR). -/
def execIllegal (ir : Byte) (s : State) : Host.Outcome State Fault Refusal :=
  commit s (.error (.illegalInstruction ir))

end Sys2Proof.Machine
end

