-- ==== Sys2Proof/Machine/Transfer.lean ====
section
/-! DEFINITION. Load immediate, output and stack instructions (spec/41_transfer.md). -/

namespace Sys2Proof.Machine

/-- LDI (R71). -/
def execLdi (ra imm : Byte) (s : State) : Host.Outcome State Fault Refusal :=
  commit s do
    let a ← regIndex ra
    return (s.setX a (zext8 imm)).advance 3

/-- PRN (R72). -/
def execPrn (ra : Byte) (s : State) : Host.Outcome State Fault Refusal :=
  commit s do
    let a ← regIndex ra
    return (s.emit (s.x a)).advance 2

/-- PUSH (R73): x[a] is read after the decrement. -/
def execPush (ra : Byte) (s : State) : Host.Outcome State Fault Refusal :=
  commit s do
    let a ← regIndex ra
    let t ← s.decSp.memWrite s.pushAddress (s.decSp.x a)
    return t.advance 2

/-- POP (R74). -/
def execPop (ra : Byte) (s : State) : Host.Outcome State Fault Refusal :=
  commit s do
    let a ← regIndex ra
    let t ← s.popInto a
    return t.advance 2

end Sys2Proof.Machine
end

