-- ==== Sys2Proof/Machine/Step.lean ====
section
/-! DEFINITION. One step of the fetch-decode-execute engine (spec/70_reset_and_hazards.md R106). -/

namespace Sys2Proof.Machine

/-- R106. A stopped CORE takes no step: the state stays as it is (log 4). -/
def step (s : State) : Host.Outcome State Fault Refusal :=
  if s.running then
    match s.fetch with
    | .ok w => exec (decode s.cfg.opcodeMap w) s
    | .error k => .next (s.raise k)
  else .next s

/-- The state with an instruction of spec/opcode_table.json stored in the fetch window at the pc, so that the next step of
a running state runs it. Nothing else changes. With a pc outside 0..253 there is no window to store to: such a state cannot
fetch (R42), and it stays as it is (log 18). -/
def State.withFetchWord (s : State) (nbits w : Nat) : State :=
  if 0 ≤ s.pc ∧ s.pc ≤ 253 then s.setMem (s.mem.writeBytes s.pc.toNat (Window.ofTableWord nbits w).bytes) else s

end Sys2Proof.Machine
end

