-- ==== Sys2Proof/Machine/LoadRun.lean ====
section
/-! DEFINITION. What the host does to the CORE outside a step: load (spec/70_reset_and_hazards.md R103) and run (R107),
and the outcome of a run (R108). -/

namespace Sys2Proof.Machine

/-- The fault record of an oversized image: pc 0 (R91, R103). -/
def loadFault (n : Nat) : FaultRecord := { cause := .outOfRangeAccess (.load n), pc := 0 }

/-- `load(p)` (R103), done after reset and before the first step (R104): byte i goes to M[i]. An image longer than memory
is not written at all, and the run that follows takes no step (log 19). -/
def State.load (s : State) (image : List Byte) : State :=
  if image.length ≤ memSize then s.setMem (s.mem.writeBytes 0 image)
  else { s with running := false, fault := some (loadFault image.length) }

/-- `run()` (R107) under a bound of `fuel` steps, since a run may never end: steps until RUNNING is false. -/
def run : Nat → State → State
  | 0, s => s
  | fuel + 1, s =>
    if s.running then
      match step s with
      | .next t => run fuel t
      | .fault _ => s
      | .refused _ => s
    else s

/-- The outcomes of a run (R108), as far as a state shows them: a hang is a run that stays `stillRunning` for every
fuel. -/
inductive RunStatus where
  | stillRunning
  | halted
  | faulted (record : FaultRecord)
  deriving DecidableEq, Repr

/-- R108: halted means RUNNING is false with no fault, faulted means RUNNING is false with the fault's record. -/
def State.status (s : State) : RunStatus :=
  if s.running then .stillRunning
  else
    match s.fault with
    | none => .halted
    | some r => .faulted r

end Sys2Proof.Machine
end

