-- ==== Sys2Proof/Safety.lean ====
section
/-! DEFINITION. The terms the claims use: what a safe run is, the invariant of the machine, the fetch condition of a step,
and the bit view of an integer (spec/00_scope.md R10). -/

namespace Sys2Proof.Machine

/-- A step is safe when the CORE goes on or halts: it records no fault. -/
def SafeStep (s : State) : Prop := ∃ t, step s = .next t ∧ t.fault = none

/-- A run is safe when no number of its steps reaches a faulted state (spec/70_reset_and_hazards.md R108). -/
def SafeRun (s : State) : Prop := ∀ fuel r, (run fuel s).status ≠ .faulted r

/-- The invariant of the machine. It holds after reset and load, and every step keeps it. -/
structure State.Inv (s : State) : Prop where
  /-- The memory keeps its canonical form and lies in 0..255 (spec/20_memory.md R30). -/
  memory : s.mem.wf
  /-- `OPCODE_MAP` is injective (spec/00_scope.md R8). -/
  config : s.cfg.opcodeMap.injective
  /-- The values FL can take (spec/10_state.md R21). -/
  flags : s.fl ∈ [0, flEqual, flGreater, flLess]
  /-- The values LATCH can take (R22). -/
  latch : ∀ v ∈ s.latch, 2 ≤ v ∧ v ≤ 255
  /-- A fault has stopped the CORE at the instruction it names (spec/60_exceptions.md R91, R92, R94). -/
  fault : ∀ r ∈ s.fault, s.running = false ∧ r.pc = s.pc

/-- The CORE is running and its fetch reads the window `w` (spec/30_encoding.md R42). -/
structure Fetches (s : State) (w : Window) : Prop where
  running : s.running = true
  low : 0 ≤ s.pc
  high : s.pc ≤ 253
  ir : s.readByte s.pc.toNat = w.ir
  a : s.readByte (s.pc + 1).toNat = w.a
  b : s.readByte (s.pc + 2).toNat = w.b

/-- The register an operand byte names (R44). -/
def regOf (n : Byte) (h : isRegIndex n) : Fin 8 := ⟨n.toNat, h⟩

/-- OutOfRangeAccess(register, n) (R44). -/
def registerFault (n : Byte) : FaultCause := .outOfRangeAccess (.register n.toNat)

/-- OutOfRangeAccess(memory, address) (spec/20_memory.md R31, R32). -/
def memoryFault (address : Int) : FaultCause := .outOfRangeAccess (.memory address)

/-- `bit_i(v) = floor(v / 2^i) mod 2` (R10). -/
def bitOf (i : Nat) (v : Int) : Int := (Int.fdiv v (2 ^ i)).fmod 2

/-- Every byte of memory reads as before. -/
def SameMemory (s t : State) : Prop := ∀ addr, t.readByte addr = s.readByte addr

/-- Every byte of memory outside one address reads as before. -/
def SameMemoryOutside (address : Int) (s t : State) : Prop :=
  ∀ addr : Nat, (addr : Int) ≠ address → t.readByte addr = s.readByte addr

/-- The destination operand of an ALU instruction (spec/40_alu.md R55), none for the other instructions. -/
def aluDestination? : Instr → Option Byte
  | .inc a => some a
  | .dec a => some a
  | .not a => some a
  | .add a _ => some a
  | .sub a _ => some a
  | .mul a _ => some a
  | .div a _ => some a
  | .mod a _ => some a
  | .and a _ => some a
  | .or a _ => some a
  | .xor a _ => some a
  | .shl a _ => some a
  | .shr a _ => some a
  | .hlt | .ret _ | .push _ | .pop _ | .prn _ | .call _ | .jmp _ | .jeq _ | .jne _ | .ldi _ _ | .cmp _ _
  | .illegal _ => none

/-- The general registers an instruction may write when it completes (spec/10_state.md R18): its destination operand, and
r7 for the stack instructions. -/
def writtenRegisters (c : Config) : Instr → List Nat
  | .ldi a _ => [a.toNat]
  | .pop a => [a.toNat, 7]
  | .ret a => if c.retFromStack then [7] else [a.toNat, 7]
  | .push _ => [7]
  | .call _ => [7]
  | .inc a => [a.toNat]
  | .dec a => [a.toNat]
  | .not a => [a.toNat]
  | .add a _ => [a.toNat]
  | .sub a _ => [a.toNat]
  | .mul a _ => [a.toNat]
  | .div a _ => [a.toNat]
  | .mod a _ => [a.toNat]
  | .and a _ => [a.toNat]
  | .or a _ => [a.toNat]
  | .xor a _ => [a.toNat]
  | .shl a _ => [a.toNat]
  | .shr a _ => [a.toNat]
  | .hlt | .prn _ | .jmp _ | .jeq _ | .jne _ | .cmp _ _ | .illegal _ => []

/-- An outcome with its next state changed by a function, for claims that compare two runs. -/
def mapNext (f : State → State) : Host.Outcome State Fault Refusal → Host.Outcome State Fault Refusal
  | .next t => .next (f t)
  | .fault r => .fault r
  | .refused r => .refused r

/-- The state with another `ROUTE_ALL_ALU` (spec/00_scope.md R8). -/
def State.withRouting (routeAll : Bool) (s : State) : State := { s with cfg := { s.cfg with routeAllAlu := routeAll } }

end Sys2Proof.Machine
end

