-- ==== Sys2Proof/Certificates/Slice0/Obligations.lean ====
section
/-! DEFINITION. The statements for the provers. A statement that rests on a choice the spec marks as its own (a decision
D<n> of spec/92_eei_decisions.md) says so in its docstring and names the log entry. -/

open Sys2Proof Sys2Proof.Machine

/-! ## Encoding and decoding -/

/-- Decoding the encoding of any instruction gives it back, with every operand byte, for every injective `OPCODE_MAP`
(spec/30_encoding.md R43, R47, R49). -/
def Obligations.DecodeOfEncodeIsTheInstruction : Prop :=
  ∀ (m : OpcodeMap) (i : Instr), m.injective → i.encodable m = true → decode m (encode m i) = i

/-- Encoding what was decoded gives back the opcode byte, and each operand byte that the instruction depends on. -/
def Obligations.EncodeOfDecodeKeepsEveryUsedByte : Prop :=
  ∀ (m : OpcodeMap) (w : Window),
    (encode m (decode m w)).ir = w.ir ∧
    ((encode m (decode m w)).a = w.a ∨ ∀ a, decode m { w with a := a } = decode m w) ∧
    ((encode m (decode m w)).b = w.b ∨ ∀ b, decode m { w with b := b } = decode m w)

/-- The byte patterns of R47's table, each with operand bytes written out, decode to their instructions. The byte values are
the spec's default for `OPCODE_MAP`, from general knowledge (D2, log 2). That INC, DEC, SUB, DIV and SHR decode to their
constructors here, where R47 and R49 do not decode them by default, is the model's choice (D3, log 5): their meanings raise
IllegalInstruction then. The byte of no mnemonic decodes to ILLEGAL (R50, log 24). -/
def Obligations.DefaultOpcodeBytesDecode : Prop :=
  decode Config.default.opcodeMap ⟨0b00000001, 0, 0x99⟩ = .hlt ∧
  decode Config.default.opcodeMap ⟨0b00010001, 1, 0x99⟩ = .ret 1 ∧
  decode Config.default.opcodeMap ⟨0b01000101, 2, 0x99⟩ = .push 2 ∧
  decode Config.default.opcodeMap ⟨0b01000110, 3, 0x99⟩ = .pop 3 ∧
  decode Config.default.opcodeMap ⟨0b01000111, 4, 0x99⟩ = .prn 4 ∧
  decode Config.default.opcodeMap ⟨0b01010000, 5, 0x99⟩ = .call 5 ∧
  decode Config.default.opcodeMap ⟨0b01010100, 6, 0x99⟩ = .jmp 6 ∧
  decode Config.default.opcodeMap ⟨0b01010101, 7, 0x99⟩ = .jeq 7 ∧
  decode Config.default.opcodeMap ⟨0b01010110, 8, 0x99⟩ = .jne 8 ∧
  decode Config.default.opcodeMap ⟨0b01100101, 0, 0x99⟩ = .inc 0 ∧
  decode Config.default.opcodeMap ⟨0b01100110, 1, 0x99⟩ = .dec 1 ∧
  decode Config.default.opcodeMap ⟨0b01101001, 2, 0x99⟩ = .not 2 ∧
  decode Config.default.opcodeMap ⟨0b10000010, 3, 0⟩ = .ldi 3 0 ∧
  decode Config.default.opcodeMap ⟨0b10100000, 4, 5⟩ = .add 4 5 ∧
  decode Config.default.opcodeMap ⟨0b10100001, 5, 1⟩ = .sub 5 1 ∧
  decode Config.default.opcodeMap ⟨0b10100010, 6, 6⟩ = .mul 6 6 ∧
  decode Config.default.opcodeMap ⟨0b10100011, 7, 2⟩ = .div 7 2 ∧
  decode Config.default.opcodeMap ⟨0b10100100, 8, 7⟩ = .mod 8 7 ∧
  decode Config.default.opcodeMap ⟨0b10100111, 0, 3⟩ = .cmp 0 3 ∧
  decode Config.default.opcodeMap ⟨0b10101000, 1, 8⟩ = .and 1 8 ∧
  decode Config.default.opcodeMap ⟨0b10101010, 2, 4⟩ = .or 2 4 ∧
  decode Config.default.opcodeMap ⟨0b10101011, 3, 0⟩ = .xor 3 0 ∧
  decode Config.default.opcodeMap ⟨0b10101100, 4, 5⟩ = .shl 4 5 ∧
  decode Config.default.opcodeMap ⟨0b10101101, 5, 1⟩ = .shr 5 1 ∧
  decode Config.default.opcodeMap ⟨0b00010011, 0, 0⟩ = .illegal 0b00010011

/-- The count of byte values a configuration does not decode: 237 by default and 232 with `ROUTE_ALL_ALU` (R50). It rests on
the default map (D2, log 2) and on the routing (D3, log 5). -/
def Obligations.UndecodedByteCounts : Prop :=
  let undecoded (c : Config) : List Nat := (List.range 256).filter fun n =>
    Opcode.all.all fun op => !(c.decodable op && c.opcodeMap.byteOf op == BitVec.ofNat 8 n)
  (undecoded Config.default).length = 237 ∧
  (undecoded { Config.default with routeAllAlu := true }).length = 232

/-! ## The step -/

/-- R106: a running CORE whose fetch succeeds runs the instruction its window decodes to, and nothing is added around
it. -/
def Obligations.StepRunsTheDecodedInstruction : Prop :=
  ∀ (s : State) (w : Window), Fetches s w → step s = exec (decode s.cfg.opcodeMap w) s

/-- R42, R93: a fetch outside 0..253 faults with the first address out of range, whatever the bytes are. That the window is
always three bytes is the spec's choice D27 (log 25). -/
def Obligations.FetchOutOfRangeFaults : Prop :=
  ∀ s : State, s.running = true →
    (s.pc < 0 ∨ 255 < s.pc → step s = .next (s.raise (memoryFault s.pc))) ∧
    (s.pc = 254 ∨ s.pc = 255 → step s = .next (s.raise (memoryFault 256)))

/-- R88: at decode, every byte that no decodable mnemonic of the active configuration has raises IllegalInstruction(IR),
whatever the operand bytes are. -/
def Obligations.UndecodableByteRaisesIllegalInstruction : Prop :=
  ∀ (s : State) (w : Window), Fetches s w →
    (∀ op, s.cfg.decodable op = true → s.cfg.opcodeMap.byteOf op ≠ w.ir) →
    step s = .next (s.raise (.illegalInstruction w.ir))

/-- R23, R94, R106: a stopped CORE takes no step, so any number of them leaves its state as it is. That the model answers
the same state is log 4. -/
def Obligations.StoppedCoreNeverChanges : Prop :=
  ∀ (s : State) (n : Nat), s.running = false → run n s = s ∧ Sys2Proof.core.run n s = .next s

/-- Every step of every state answers a next state: no instruction is refused and none ends outside the spec's states
(log 22, DEDUCED). It rests on two more readings of the model: a fault of the spec is a next state (log 3), and a stopped CORE,
which takes no step by R106, answers the same state (log 4). -/
def Obligations.EveryStepAnswersANextState : Prop :=
  ∀ s : State, ∃ t, step s = .next t

/-- R92: a faulting step discards every write: only RUNNING and FAULT differ, and the record names the step's PC. The
precision of every fault is the spec's choice D14 (log 10). -/
def Obligations.FaultsArePrecise : Prop :=
  ∀ (s t : State) (r : FaultRecord), s.fault = none → step s = .next t → t.fault = some r →
    t = { s with running := false, fault := some r } ∧ r.pc = s.pc

/-- R86: no step raises UnsupportedOperation, because every routed opcode is a key of the ALU's table (D30, log 29). -/
def Obligations.UnsupportedOperationIsNeverRaised : Prop :=
  ∀ (s t : State) (r : FaultRecord), s.fault = none → step s = .next t → t.fault = some r →
    ∀ op, r.cause ≠ .unsupportedOperation op

/-- R108: a running CORE with no fault comes to a stop without a fault exactly by HLT. -/
def Obligations.HaltedIsReachedOnlyByHlt : Prop :=
  ∀ s t : State, s.running = true → s.fault = none → step s = .next t →
    ((t.running = false ∧ t.fault = none) ↔ ∃ w, Fetches s w ∧ decode s.cfg.opcodeMap w = .hlt)

/-- R44, R93: the first register field that is no index 0..7 is reported, A before B, before the instruction's own checks.
The order is the spec's choice D15, the check on every path its choice D16 (log 16). -/
def Obligations.FirstBadRegisterFieldFaults : Prop :=
  ∀ (i : Instr) (s : State) (n : Byte), i.decodable s.cfg = true →
    (i.regFields s.cfg).find? (fun b => decide (¬ isRegIndex b)) = some n →
    exec i s = .next (s.raise (registerFault n))

/-- R50: the undecodable byte's own effect is the fault IllegalInstruction. Its record and precision are the spec's choice D14
(log 10). -/
def Obligations.IllegalByteEntersItsFault : Prop :=
  ∀ (s : State) (ir : Byte),
    exec (.illegal ir) s =
      .next { s with running := false, fault := some { cause := .illegalInstruction ir, pc := s.pc } }

/-! ## Reset, load, the invariant -/

/-- R29, R102: what reset leaves. r0..r6, FL, LATCH, FAULT, OUT and the memory's 0 are the spec's own choices (D5, D6, D8,
D14, D7: log 6, 7, 8, 10, 9); the claim holds for every `GPR_RESET`. -/
def Obligations.ResetLeavesTheSpecsValues : Prop :=
  (∀ c : Config,
    let s := State.resetWith c
    s.pc = 0 ∧ s.x 7 = 0xF4 ∧ s.running = true ∧
    s.x 0 = c.gprReset.r0 ∧ s.x 1 = c.gprReset.r1 ∧ s.x 2 = c.gprReset.r2 ∧ s.x 3 = c.gprReset.r3 ∧
    s.x 4 = c.gprReset.r4 ∧ s.x 5 = c.gprReset.r5 ∧ s.x 6 = c.gprReset.r6 ∧
    s.fl = 0 ∧ s.latch = none ∧ s.fault = none ∧ s.out = [] ∧ s.cfg = c ∧ ∀ a, s.readByte a = 0) ∧
  State.reset = State.resetWith Config.default ∧
  Config.default.routeAllAlu = false ∧ Config.default.retFromStack = false ∧
  Config.default.gprReset = ⟨0, 0, 0, 0, 0, 0, 0⟩

/-- The state after reset meets the invariant. It rests on the spec's reset choices (log 7, 8, 9). -/
def Obligations.ResetMeetsTheInvariant : Prop := State.reset.Inv

/-- Every step keeps the invariant: memory in form and inside 0..255 (R30), FL one of its four values (R21), LATCH empty or
in 2..255 (R22), a fault only in a stopped CORE whose pc is the recorded one (R91, R94; that the pc stays is the spec's choice
D14, log 10). -/
def Obligations.StepKeepsTheInvariant : Prop :=
  ∀ s t : State, s.Inv → step s = .next t → t.Inv

/-- R103: load writes byte i of the image to M[i] and nothing else, cells behind the image stay 0; an image of more than 256
bytes is not written, the fault names its length with pc 0, and the run takes no step. The 0 is the spec's choice D7, the
oversized case its choice D22 (log 9, 19). -/
def Obligations.LoadPlacesTheImage : Prop :=
  ∀ (c : Config) (image : List Byte),
    (image.length ≤ 256 →
      (∀ a, a < 256 → ((State.resetWith c).load image).readByte a = image.getD a 0) ∧
      (State.resetWith c).load image = { State.resetWith c with mem := ((State.resetWith c).load image).mem }) ∧
    (256 < image.length →
      (State.resetWith c).load image =
        { State.resetWith c with
          running := false, fault := some { cause := .outOfRangeAccess (.load image.length), pc := 0 } } ∧
      ∀ n, run n ((State.resetWith c).load image) = (State.resetWith c).load image)

/-- Reset and load meet the invariant, for every injective map and every image. It rests on the spec's reset choices for FL,
LATCH and memory (D6, D8, D7: log 7, 8, 9), and for an oversized image on its choice D22 (log 19): the CORE is stopped, and the
record's pc 0 is the reset pc. -/
def Obligations.LoadMeetsTheInvariant : Prop :=
  ∀ (c : Config) (image : List Byte), c.opcodeMap.injective → ((State.resetWith c).load image).Inv

/-- A run is safe exactly when each of its steps is. -/
def Obligations.SafeRunIsEveryStepSafe : Prop :=
  ∀ s : State, s.fault = none → (SafeRun s ↔ ∀ n, SafeStep (run n s))

/-! ## Memory and registers -/

/-- R31: `MemRead` answers the byte, or faults with the address. -/
def Obligations.MemReadChecksTheAddress : Prop :=
  ∀ (s : State) (addr : Int),
    (addr < 0 ∨ 255 < addr → s.memRead addr = .error (.outOfRangeAccess (.memory addr))) ∧
    (0 ≤ addr ∧ addr ≤ 255 → s.memRead addr = .ok (s.readByte addr.toNat))

/-- R32, R39: `MemWrite` faults on the address first, then on a value that is no byte (the spec's choice D9, log 15), and
otherwise every later `MemRead` gives the stored value at the address and the old byte elsewhere, and nothing but memory
changes. -/
def Obligations.StoredByteIsReadBack : Prop :=
  ∀ (s : State) (addr v : Int),
    (addr < 0 ∨ 255 < addr → s.memWrite addr v = .error (.outOfRangeAccess (.memory addr))) ∧
    (0 ≤ addr ∧ addr ≤ 255 → v < 0 ∨ 255 < v → s.memWrite addr v = .error (.valueOutOfDomain (.store v))) ∧
    (0 ≤ addr ∧ addr ≤ 255 → 0 ≤ v ∧ v ≤ 255 → s.mem.wf →
      ∃ t, s.memWrite addr v = .ok t ∧ t = { s with mem := t.mem } ∧ t.mem.wf ∧
        (t.memRead addr).map zext8 = .ok v ∧ ∀ other, other ≠ addr → t.memRead other = s.memRead other)

/-- R17: a register write is read back, leaves the other registers alone, and no register is hardwired. -/
def Obligations.RegisterWriteIsReadBack : Prop :=
  ∀ (s : State) (i j : Fin 8) (v : Int),
    (s.setX i v).x i = v ∧ (j ≠ i → (s.setX i v).x j = s.x j) ∧ s.setX i v = { s with regs := (s.setX i v).regs }

/-! ## The integer operators -/

/-- R10, R13: the bitwise operators act bit by bit on the two's-complement view of ℤ (the spec's choice D10, log 12). -/
def Obligations.BitwiseOperatorsActBitByBit : Prop :=
  ∀ (u v : Int) (i : Nat),
    bitOf i (land u v) = bitOf i u * bitOf i v ∧
    bitOf i (lor u v) = bitOf i u + bitOf i v - bitOf i u * bitOf i v ∧
    bitOf i (lxor u v) = (bitOf i u + bitOf i v) % 2 ∧
    bitOf i (lnot u) = 1 - bitOf i u

/-! ## The ALU instructions -/

/-- R57: ADD whole, in every injective `OPCODE_MAP`; the map's default bytes are `DefaultOpcodeBytesDecode`'s. -/
def Obligations.AddWritesTheSum : Prop :=
  (∀ (m : OpcodeMap) (ra rb : Byte), m.injective → decode m ⟨m.add, ra, rb⟩ = .add ra rb) ∧
  ∀ (s : State) (ra rb : Byte),
    (∀ (ha : isRegIndex ra) (hb : isRegIndex rb),
      exec (.add ra rb) s =
        .next { s with regs := s.regs.set (regOf ra ha) (s.x (regOf ra ha) + s.x (regOf rb hb)), pc := s.pc + 3 }) ∧
    (¬ isRegIndex ra → exec (.add ra rb) s = .next (s.raise (registerFault ra))) ∧
    (isRegIndex ra → ¬ isRegIndex rb → exec (.add ra rb) s = .next (s.raise (registerFault rb)))

/-- R59: MUL whole, in every injective `OPCODE_MAP`; the map's default bytes are `DefaultOpcodeBytesDecode`'s. -/
def Obligations.MulWritesTheProduct : Prop :=
  (∀ (m : OpcodeMap) (ra rb : Byte), m.injective → decode m ⟨m.mul, ra, rb⟩ = .mul ra rb) ∧
  ∀ (s : State) (ra rb : Byte),
    (∀ (ha : isRegIndex ra) (hb : isRegIndex rb),
      exec (.mul ra rb) s =
        .next { s with regs := s.regs.set (regOf ra ha) (s.x (regOf ra ha) * s.x (regOf rb hb)), pc := s.pc + 3 }) ∧
    (¬ isRegIndex ra → exec (.mul ra rb) s = .next (s.raise (registerFault ra))) ∧
    (isRegIndex ra → ¬ isRegIndex rb → exec (.mul ra rb) s = .next (s.raise (registerFault rb)))

/-- R58, R62, R63: SUB, INC and DEC with `ROUTE_ALL_ALU`, with no wrap. The routing is the spec's parameter D3 (log 5). -/
def Obligations.RoutedSubIncDecResults : Prop :=
  ∀ (s : State) (ra rb : Byte) (ha : isRegIndex ra), s.cfg.routeAllAlu = true →
    (∀ hb : isRegIndex rb,
      exec (.sub ra rb) s =
        .next { s with regs := s.regs.set (regOf ra ha) (s.x (regOf ra ha) - s.x (regOf rb hb)), pc := s.pc + 3 }) ∧
    exec (.inc ra) s = .next { s with regs := s.regs.set (regOf ra ha) (s.x (regOf ra ha) + 1), pc := s.pc + 3 } ∧
    exec (.dec ra) s = .next { s with regs := s.regs.set (regOf ra ha) (s.x (regOf ra ha) - 1), pc := s.pc + 3 }

/-- R60: DIV with `ROUTE_ALL_ALU` writes an exact quotient, and faults on a zero divisor and on a quotient that is no
integer (the spec's choices D3, D13: log 5, 14). -/
def Obligations.RoutedDivIsExactOrFaults : Prop :=
  ∀ (s : State) (ra rb : Byte) (ha : isRegIndex ra) (hb : isRegIndex rb), s.cfg.routeAllAlu = true →
    let u := s.x (regOf ra ha)
    let v := s.x (regOf rb hb)
    (v = 0 → exec (.div ra rb) s = .next (s.raise (.divideByZero .div))) ∧
    (∀ q, v ≠ 0 → u = v * q →
      exec (.div ra rb) s = .next { s with regs := s.regs.set (regOf ra ha) q, pc := s.pc + 3 }) ∧
    (v ≠ 0 → (∀ q, u ≠ v * q) → exec (.div ra rb) s = .next (s.raise (.valueOutOfDomain (.div u v))))

/-- R61, R13, R85: MOD writes the floor remainder (the spec's choice D11, log 13), and a zero divisor raises DivideByZero
before any mutation. -/
def Obligations.ModWritesTheFloorRemainder : Prop :=
  ∀ (s : State) (ra rb : Byte) (ha : isRegIndex ra) (hb : isRegIndex rb),
    let u := s.x (regOf ra ha)
    let v := s.x (regOf rb hb)
    (v = 0 → exec (.mod ra rb) s = .next (s.raise (.divideByZero .mod))) ∧
    (v ≠ 0 → ∃ q r, u = v * q + r ∧ (0 < v → 0 ≤ r ∧ r < v) ∧ (v < 0 → v < r ∧ r ≤ 0) ∧
      exec (.mod ra rb) s = .next { s with regs := s.regs.set (regOf ra ha) r, pc := s.pc + 3 })

/-- R65, R67, R70, R66: AND, OR, XOR write the value whose every bit is the operation of the operands' bits, and NOT writes
-u - 1 (the spec's choice D10, log 12). -/
def Obligations.BitwiseInstructionResults : Prop :=
  ∀ (s : State) (ra rb : Byte) (ha : isRegIndex ra) (hb : isRegIndex rb),
    let u := s.x (regOf ra ha)
    let v := s.x (regOf rb hb)
    (∃ z, exec (.and ra rb) s = .next { s with regs := s.regs.set (regOf ra ha) z, pc := s.pc + 3 } ∧
      ∀ i, bitOf i z = bitOf i u * bitOf i v) ∧
    (∃ z, exec (.or ra rb) s = .next { s with regs := s.regs.set (regOf ra ha) z, pc := s.pc + 3 } ∧
      ∀ i, bitOf i z = bitOf i u + bitOf i v - bitOf i u * bitOf i v) ∧
    (∃ z, exec (.xor ra rb) s = .next { s with regs := s.regs.set (regOf ra ha) z, pc := s.pc + 3 } ∧
      ∀ i, bitOf i z = (bitOf i u + bitOf i v) % 2) ∧
    exec (.not ra) s = .next { s with regs := s.regs.set (regOf ra ha) (-u - 1), pc := s.pc + 3 }

/-- R68, R69: SHL multiplies by 2^k, SHR with `ROUTE_ALL_ALU` writes the floor of the quotient by 2^k, and a negative count
faults (the spec's choices D3, D12: log 5, 13). -/
def Obligations.ShiftResults : Prop :=
  ∀ (s : State) (ra rb : Byte) (ha : isRegIndex ra) (hb : isRegIndex rb),
    let u := s.x (regOf ra ha)
    let k := s.x (regOf rb hb)
    (0 ≤ k → exec (.shl ra rb) s =
      .next { s with regs := s.regs.set (regOf ra ha) (u * 2 ^ k.toNat), pc := s.pc + 3 }) ∧
    (k < 0 → exec (.shl ra rb) s = .next (s.raise (.valueOutOfDomain (.shift k)))) ∧
    (s.cfg.routeAllAlu = true → 0 ≤ k → ∃ q, q * 2 ^ k.toNat ≤ u ∧ u < (q + 1) * 2 ^ k.toNat ∧
      exec (.shr ra rb) s = .next { s with regs := s.regs.set (regOf ra ha) q, pc := s.pc + 3 }) ∧
    (s.cfg.routeAllAlu = true → k < 0 → exec (.shr ra rb) s = .next (s.raise (.valueOutOfDomain (.shift k))))

/-- R53, R58, R60, R62, R63, R69: in the default routing the five unrouted operations are IllegalInstruction with their
opcode byte, whatever their operand bytes are (the spec's choice D3, log 5). -/
def Obligations.UnroutedOperationsAreIllegal : Prop :=
  ∀ (s : State) (ra rb : Byte), s.cfg.routeAllAlu = false →
    exec (.sub ra rb) s = .next (s.raise (.illegalInstruction s.cfg.opcodeMap.sub)) ∧
    exec (.div ra rb) s = .next (s.raise (.illegalInstruction s.cfg.opcodeMap.div)) ∧
    exec (.shr ra rb) s = .next (s.raise (.illegalInstruction s.cfg.opcodeMap.shr)) ∧
    exec (.inc ra) s = .next (s.raise (.illegalInstruction s.cfg.opcodeMap.inc)) ∧
    exec (.dec ra) s = .next (s.raise (.illegalInstruction s.cfg.opcodeMap.dec))

/-- R54, R55: an ALU instruction writes no register but its destination, no flag, no memory, no latch and no output, and
either goes on with pc + 3 or enters a fault. -/
def Obligations.AluInstructionsWriteOnlyTheirDestination : Prop :=
  ∀ (i : Instr) (ra : Byte) (s t : State), aluDestination? i = some ra → exec i s = .next t →
    SameMemory s t ∧ t.fl = s.fl ∧ t.latch = s.latch ∧ t.out = s.out ∧ t.cfg = s.cfg ∧
    (∀ j : Fin 8, j.val ≠ ra.toNat → t.x j = s.x j) ∧
    ((t.running = s.running ∧ t.fault = s.fault ∧ t.pc = s.pc + 3) ∨ ∃ k, t = s.raise k)

/-! ## Load immediate, output and stack -/

/-- R71: LDI whole, in every injective `OPCODE_MAP`; the map's default bytes are `DefaultOpcodeBytesDecode`'s. -/
def Obligations.LdiWritesTheImmediate : Prop :=
  (∀ (m : OpcodeMap) (ra imm : Byte), m.injective → decode m ⟨m.ldi, ra, imm⟩ = .ldi ra imm) ∧
  ∀ (s : State) (ra imm : Byte),
    (∀ ha : isRegIndex ra,
      exec (.ldi ra imm) s = .next { s with regs := s.regs.set (regOf ra ha) imm.toNat, pc := s.pc + 3 }) ∧
    (¬ isRegIndex ra → exec (.ldi ra imm) s = .next (s.raise (registerFault ra)))

/-- R72: PRN whole, in every injective `OPCODE_MAP`; the map's default bytes are `DefaultOpcodeBytesDecode`'s. -/
def Obligations.PrnEmitsTheRegister : Prop :=
  (∀ (m : OpcodeMap) (ra b : Byte), m.injective → decode m ⟨m.prn, ra, b⟩ = .prn ra) ∧
  ∀ (s : State) (ra : Byte),
    (∀ ha : isRegIndex ra,
      exec (.prn ra) s = .next { s with out := s.out ++ [s.x (regOf ra ha)], pc := s.pc + 2 }) ∧
    (¬ isRegIndex ra → exec (.prn ra) s = .next (s.raise (registerFault ra)))

/-- R73: PUSH stores at SP - 1 the register's value, read after the decrement (the spec's choice D25, log 21). A store outside
memory, or of a value that is no byte (its choice D9, log 15), faults with the stack pointer unmoved. -/
def Obligations.PushStoresAtTheDecrementedPointer : Prop :=
  ∀ (s : State) (ra : Byte) (ha : isRegIndex ra),
    let v := if regOf ra ha = 7 then s.x 7 - 1 else s.x (regOf ra ha)
    (inMemory s.pushAddress → isByteValue v →
      ∃ t, exec (.push ra) s = .next t ∧
        t = { s with mem := t.mem, regs := s.regs.set 7 (s.x 7 - 1), pc := s.pc + 2 } ∧
        SameMemoryOutside s.pushAddress s t ∧ (s.mem.wf → zext8 (t.readByte (s.x 7 - 1).toNat) = v)) ∧
    (¬ inMemory s.pushAddress → exec (.push ra) s = .next (s.raise (memoryFault (s.x 7 - 1)))) ∧
    (inMemory s.pushAddress → ¬ isByteValue v → exec (.push ra) s = .next (s.raise (.valueOutOfDomain (.store v))))

/-- R74: POP reads the byte at SP into the register and then increments SP, so that POP r7 leaves the byte plus 1 (the spec's
choice D25, log 21). -/
def Obligations.PopReadsThenIncrements : Prop :=
  ∀ (s : State) (ra : Byte) (ha : isRegIndex ra),
    let v : Int := (s.readByte (s.x 7).toNat).toNat
    (inMemory (s.x 7) → regOf ra ha ≠ 7 →
      exec (.pop ra) s =
        .next { s with regs := (s.regs.set (regOf ra ha) v).set 7 (s.x 7 + 1), pc := s.pc + 2 }) ∧
    (inMemory (s.x 7) → regOf ra ha = 7 →
      exec (.pop ra) s = .next { s with regs := s.regs.set 7 (v + 1), pc := s.pc + 2 }) ∧
    (¬ inMemory (s.x 7) → exec (.pop ra) s = .next (s.raise (memoryFault (s.x 7))))

/-- R73, R74 (and spec/95_test_vectors.md W2): a PUSH and then a POP of the same register leave every register as it was,
r7 among them (the spec's choices D9, D25: log 15, 21). -/
def Obligations.PushThenPopRestoresEveryRegister : Prop :=
  ∀ (s : State) (ra : Byte) (ha : isRegIndex ra), s.mem.wf → inMemory s.pushAddress →
    isByteValue (if regOf ra ha = 7 then s.x 7 - 1 else s.x (regOf ra ha)) →
    ∃ t u, exec (.push ra) s = .next t ∧ exec (.pop ra) t = .next u ∧ (∀ j, u.x j = s.x j) ∧ u.pc = s.pc + 4

/-- R41: the fetch after a PUSH sees the byte it stored, wherever in the window it lies. The value PUSH r7 stores is the spec's
choice D25 (log 21). -/
def Obligations.NextFetchSeesThePushedByte : Prop :=
  ∀ (s t : State) (w : Window) (ra : Byte) (ha : isRegIndex ra), s.mem.wf → exec (.push ra) s = .next t → Fetches t w →
    let v := if regOf ra ha = 7 then s.x 7 - 1 else s.x (regOf ra ha)
    (t.pc = s.pushAddress → zext8 w.ir = v) ∧
    (t.pc + 1 = s.pushAddress → zext8 w.a = v) ∧
    (t.pc + 2 = s.pushAddress → zext8 w.b = v)

/-! ## Control -/

/-- R76: CALL puts pc + 2 into the latch and onto the stack, and jumps to the register's value, read after the push (the
spec's choice D25, log 21). -/
def Obligations.CallSavesTheReturnAddressTwice : Prop :=
  ∀ (s : State) (ra : Byte) (ha : isRegIndex ra),
    (0 ≤ s.pc ∧ s.pc ≤ 253 → inMemory s.pushAddress →
      ∃ t, exec (.call ra) s = .next t ∧
        t = { s with
          mem := t.mem, regs := s.regs.set 7 (s.x 7 - 1), latch := some (s.pc + 2)
          pc := if regOf ra ha = 7 then s.x 7 - 1 else s.x (regOf ra ha) } ∧
        SameMemoryOutside s.pushAddress s t ∧ (s.mem.wf → zext8 (t.readByte (s.x 7 - 1).toNat) = s.pc + 2)) ∧
    (¬ inMemory s.pushAddress → exec (.call ra) s = .next (s.raise (memoryFault (s.x 7 - 1))))

/-- R77, the default configuration: RET pops into its register and takes the pc from the latch, which keeps its value (the
spec's choice D26, log 17); an empty latch faults with nothing popped (its choice D8, log 8). That RET r7
leaves the popped byte plus 1 is its choice D25 (log 21). -/
def Obligations.RetTakesThePcFromTheLatch : Prop :=
  ∀ (s : State) (ra : Byte) (ha : isRegIndex ra), s.cfg.retFromStack = false →
    let v : Int := (s.readByte (s.x 7).toNat).toNat
    (∀ target, inMemory (s.x 7) → s.latch = some target → regOf ra ha ≠ 7 →
      exec (.ret ra) s =
        .next { s with regs := (s.regs.set (regOf ra ha) v).set 7 (s.x 7 + 1), pc := target }) ∧
    (∀ target, inMemory (s.x 7) → s.latch = some target → regOf ra ha = 7 →
      exec (.ret ra) s = .next { s with regs := s.regs.set 7 (v + 1), pc := target }) ∧
    (¬ inMemory (s.x 7) → exec (.ret ra) s = .next (s.raise (memoryFault (s.x 7)))) ∧
    (inMemory (s.x 7) → s.latch = none → exec (.ret ra) s = .next (s.raise .emptyReturnLatch))

/-- R77 with `RET_FROM_STACK` (the spec's parameter D4, log 17): RET pops the pc, whatever its operand byte is, and checks
no latch. -/
def Obligations.RetFromStackPopsThePc : Prop :=
  ∀ (s : State) (ra : Byte), s.cfg.retFromStack = true →
    (inMemory (s.x 7) →
      exec (.ret ra) s =
        .next { s with regs := s.regs.set 7 (s.x 7 + 1), pc := (s.readByte (s.x 7).toNat).toNat }) ∧
    (¬ inMemory (s.x 7) → exec (.ret ra) s = .next (s.raise (memoryFault (s.x 7))))

/-- R76, R77 (and spec/95_test_vectors.md W5): a CALL and then a RET come back to the CALL's pc + 2, in both
configurations of RET, with the stack pointer where it was unless RET's register is r7 and takes the popped byte (the
spec's choices D4, D25, D26: log 17, 21). -/
def Obligations.CallThenRetReturns : Prop :=
  ∀ (s : State) (ra rb : Byte) (_ha : isRegIndex ra) (hb : isRegIndex rb), s.mem.wf → 0 ≤ s.pc ∧ s.pc ≤ 253 →
    inMemory s.pushAddress →
    ∃ t u, exec (.call ra) s = .next t ∧ exec (.ret rb) t = .next u ∧ u.pc = s.pc + 2 ∧
      (s.cfg.retFromStack = true ∨ regOf rb hb ≠ 7 → u.x 7 = s.x 7) ∧
      (s.cfg.retFromStack = false → regOf rb hb ≠ 7 → u.x (regOf rb hb) = s.pc + 2)

/-- R78, R75: JMP loads the pc with the register's value, unchecked and not wrapped (the spec's choice D17, log 25). A
target outside 0..253 faults at the next fetch with the first address out of range (its choice D27, log 25). A JMP to its own
address hangs: any number of steps leaves the running state as it is. -/
def Obligations.JmpLoadsThePcUnchecked : Prop :=
  ∀ (s : State) (ra : Byte),
    (∀ ha : isRegIndex ra,
      let target := s.x (regOf ra ha)
      exec (.jmp ra) s = .next { s with pc := target } ∧
      (s.running = true → target < 0 ∨ 255 < target →
        step { s with pc := target } = .next ({ s with pc := target }.raise (memoryFault target))) ∧
      (s.running = true → target = 254 ∨ target = 255 →
        step { s with pc := target } = .next ({ s with pc := target }.raise (memoryFault 256))) ∧
      ∀ w, Fetches s w → decode s.cfg.opcodeMap w = .jmp ra → target = s.pc →
        ∀ n, run n s = s ∧ (run n s).status = .stillRunning) ∧
    (¬ isRegIndex ra → exec (.jmp ra) s = .next (s.raise (registerFault ra)))

/-- R79: CMP whole, in every injective `OPCODE_MAP`; the map's default bytes are `DefaultOpcodeBytesDecode`'s. -/
def Obligations.CmpSetsExactlyOneFlag : Prop :=
  (∀ (m : OpcodeMap) (ra rb : Byte), m.injective → decode m ⟨m.cmp, ra, rb⟩ = .cmp ra rb) ∧
  ∀ (s : State) (ra rb : Byte),
    (∀ (ha : isRegIndex ra) (hb : isRegIndex rb),
      (s.x (regOf ra ha) < s.x (regOf rb hb) →
        exec (.cmp ra rb) s = .next { s with fl := 0b100, pc := s.pc + 3 }) ∧
      (s.x (regOf ra ha) = s.x (regOf rb hb) →
        exec (.cmp ra rb) s = .next { s with fl := 0b001, pc := s.pc + 3 }) ∧
      (s.x (regOf rb hb) < s.x (regOf ra ha) →
        exec (.cmp ra rb) s = .next { s with fl := 0b010, pc := s.pc + 3 })) ∧
    (¬ isRegIndex ra → exec (.cmp ra rb) s = .next (s.raise (registerFault ra))) ∧
    (isRegIndex ra → ¬ isRegIndex rb → exec (.cmp ra rb) s = .next (s.raise (registerFault rb)))

/-- R80, R81: JEQ jumps on FL = 0b001 exactly and JNE on every other FL, the one with two bits set among them (the exact
match is D29, log 26); the register field is checked on both paths (the spec's choice D16, log 16). -/
def Obligations.ConditionalJumpsMatchFlExactly : Prop :=
  ∀ (s : State) (ra : Byte),
    (∀ ha : isRegIndex ra,
      (s.fl = 0b001 →
        exec (.jeq ra) s = .next { s with pc := s.x (regOf ra ha) } ∧
        exec (.jne ra) s = .next { s with pc := s.pc + 2 }) ∧
      (s.fl ≠ 0b001 →
        exec (.jeq ra) s = .next { s with pc := s.pc + 2 } ∧
        exec (.jne ra) s = .next { s with pc := s.x (regOf ra ha) })) ∧
    (¬ isRegIndex ra →
      exec (.jeq ra) s = .next (s.raise (registerFault ra)) ∧ exec (.jne ra) s = .next (s.raise (registerFault ra)))

/-- R82: HLT stops the CORE with no fault, one past its byte. -/
def Obligations.HltStopsWithoutAFault : Prop :=
  ∀ s : State, exec .hlt s = .next { s with running := false, pc := s.pc + 1 }

/-! ## Rules about every instruction -/

/-- R18: a general register changes only by an instruction that has it as its destination, or r7 by a stack instruction. -/
def Obligations.RegistersChangeOnlyAsDestinations : Prop :=
  ∀ (i : Instr) (s t : State) (j : Fin 8), exec i s = .next t → j.val ∉ writtenRegisters s.cfg i → t.x j = s.x j

/-- R33, R37: only PUSH and CALL store, each to the one byte below the stack pointer. -/
def Obligations.MemoryChangesOnlyByPushAndCall : Prop :=
  ∀ (i : Instr) (s t : State), exec i s = .next t →
    SameMemoryOutside s.pushAddress s t ∧ ((∀ ra, i ≠ .push ra ∧ i ≠ .call ra) → SameMemory s t)

/-- R21: no instruction but CMP writes FL, and CMP writes one of its three values or, faulting, none. -/
def Obligations.FlagsChangeOnlyByCmp : Prop :=
  ∀ (i : Instr) (s t : State), exec i s = .next t →
    t.fl = s.fl ∨ ∃ ra rb, i = .cmp ra rb ∧ (t.fl = 0b100 ∨ t.fl = 0b010 ∨ t.fl = 0b001)

/-- R22: no instruction but CALL writes LATCH, and CALL writes pc + 2 or, faulting, nothing; no instruction empties it (RET
by the spec's choice D26, log 17). -/
def Obligations.LatchChangesOnlyByCall : Prop :=
  ∀ (i : Instr) (s t : State), exec i s = .next t →
    t.latch = s.latch ∨ ∃ ra, i = .call ra ∧ t.latch = some (s.pc + 2)

/-- R25: OUT only grows, at its end, by one register's value, and only by PRN. -/
def Obligations.OutputGrowsOnlyByPrn : Prop :=
  ∀ (i : Instr) (s t : State), exec i s = .next t →
    t.out = s.out ∨ ∃ (ra : Byte) (ha : isRegIndex ra), i = .prn ra ∧ t.out = s.out ++ [s.x (regOf ra ha)]

/-- R23, R24: an instruction leaves RUNNING and FAULT alone unless it is HLT, which clears RUNNING, or enters a fault, and
none changes the configuration (log 1). -/
def Obligations.RunningAndFaultChangeOnlyByHltOrFault : Prop :=
  ∀ (i : Instr) (s t : State), exec i s = .next t →
    t.cfg = s.cfg ∧
    ((t.running = s.running ∧ t.fault = s.fault) ∨ (i = .hlt ∧ t.running = false ∧ t.fault = s.fault) ∨
      ∃ k, t = s.raise k)

/-- R21: FL influences no instruction but JEQ and JNE: from states that differ in FL alone, every other instruction but CMP
answers states that differ in FL alone. -/
def Obligations.FlagsInfluenceOnlyConditionalJumps : Prop :=
  ∀ (i : Instr) (s : State) (fl : Byte), (∀ ra, i ≠ .jeq ra ∧ i ≠ .jne ra) → (∀ ra rb, i ≠ .cmp ra rb) →
    exec i (s.setFl fl) = mapNext (fun t => t.setFl fl) (exec i s)

/-- R22: LATCH influences no instruction but RET: from states that differ in LATCH alone, every instruction but RET and
CALL answers states that differ in LATCH alone. -/
def Obligations.LatchInfluencesOnlyRet : Prop :=
  ∀ (i : Instr) (s : State) (v : Int), (∀ ra, i ≠ .ret ra ∧ i ≠ .call ra) →
    exec i (s.setLatch v) = mapNext (fun t => t.setLatch v) (exec i s)

/-- R53: `ROUTE_ALL_ALU` influences no instruction but the five it routes (the spec's parameter D3, log 5). -/
def Obligations.RoutingInfluencesOnlyTheFive : Prop :=
  ∀ (i : Instr) (s : State) (routeAll : Bool), (∀ op, i.opcode? = some op → op.routedOnRequest = false) →
    exec i (s.withRouting routeAll) = mapNext (State.withRouting routeAll) (exec i s)
end

