-- ==== Sys2Proof/Laws/Decode.lean ====
section
/-! SUPPORT. What the decoder's lookup answers. -/

namespace Sys2Proof

theorem Opcode.mem_all (op : Opcode) : op ∈ Opcode.all := by cases op <;> decide

/-- A byte is decoded as a mnemonic only if it is that mnemonic's byte. -/
theorem OpcodeMap.byteOf_of_lookup {m : OpcodeMap} {ir : Byte} {op : Opcode} (h : m.lookup ir = some op) :
    m.byteOf op = ir := by
  simpa using List.find?_some h

/-- A byte that is no mnemonic's is decoded as none. -/
theorem OpcodeMap.lookup_eq_none {m : OpcodeMap} {ir : Byte} : m.lookup ir = none ↔ ∀ op, m.byteOf op ≠ ir := by
  simp [OpcodeMap.lookup, Opcode.mem_all]

/-- In an injective map, a mnemonic's byte is decoded as it. -/
theorem OpcodeMap.lookup_byteOf {m : OpcodeMap} (hm : m.injective) (op : Opcode) : m.lookup (m.byteOf op) = some op := by
  cases h : m.lookup (m.byteOf op) with
  | none => exact absurd rfl (OpcodeMap.lookup_eq_none.1 h op)
  | some op' =>
    exact congrArg some (List.inj_on_of_nodup_map hm (Opcode.mem_all op') (Opcode.mem_all op) (OpcodeMap.byteOf_of_lookup h))

theorem decode_of_lookup {m : OpcodeMap} {w : Window} {op : Opcode} (h : m.lookup w.ir = some op) :
    decode m w = .ofOpcode op w.a w.b := by
  simp [decode, h]

theorem decode_of_lookup_none {m : OpcodeMap} {w : Window} (h : m.lookup w.ir = none) : decode m w = .illegal w.ir := by
  simp [decode, h]

theorem OpcodeMap.ls8_injective : OpcodeMap.ls8.injective := by decide

end Sys2Proof
end

