-- ==== Sys2Proof/Laws/State.lean ====
section
/-! SUPPORT. One lemma per field of State and per update of it, so that no proof unfolds a record update, and the register
file's read-after-write laws. -/

namespace Sys2Proof.Machine

@[simp] theorem State.setX_cfg (s : State) (i : Fin 8) (v : Int) : (s.setX i v).cfg = s.cfg := rfl
@[simp] theorem State.setX_mem (s : State) (i : Fin 8) (v : Int) : (s.setX i v).mem = s.mem := rfl
@[simp] theorem State.setX_regs (s : State) (i : Fin 8) (v : Int) : (s.setX i v).regs = s.regs.set i v := rfl
@[simp] theorem State.setX_pc (s : State) (i : Fin 8) (v : Int) : (s.setX i v).pc = s.pc := rfl
@[simp] theorem State.setX_fl (s : State) (i : Fin 8) (v : Int) : (s.setX i v).fl = s.fl := rfl
@[simp] theorem State.setX_latch (s : State) (i : Fin 8) (v : Int) : (s.setX i v).latch = s.latch := rfl
@[simp] theorem State.setX_running (s : State) (i : Fin 8) (v : Int) : (s.setX i v).running = s.running := rfl
@[simp] theorem State.setX_fault (s : State) (i : Fin 8) (v : Int) : (s.setX i v).fault = s.fault := rfl
@[simp] theorem State.setX_out (s : State) (i : Fin 8) (v : Int) : (s.setX i v).out = s.out := rfl

@[simp] theorem State.setPc_cfg (s : State) (v : Int) : (s.setPc v).cfg = s.cfg := rfl
@[simp] theorem State.setPc_mem (s : State) (v : Int) : (s.setPc v).mem = s.mem := rfl
@[simp] theorem State.setPc_regs (s : State) (v : Int) : (s.setPc v).regs = s.regs := rfl
@[simp] theorem State.setPc_pc (s : State) (v : Int) : (s.setPc v).pc = v := rfl
@[simp] theorem State.setPc_fl (s : State) (v : Int) : (s.setPc v).fl = s.fl := rfl
@[simp] theorem State.setPc_latch (s : State) (v : Int) : (s.setPc v).latch = s.latch := rfl
@[simp] theorem State.setPc_running (s : State) (v : Int) : (s.setPc v).running = s.running := rfl
@[simp] theorem State.setPc_fault (s : State) (v : Int) : (s.setPc v).fault = s.fault := rfl
@[simp] theorem State.setPc_out (s : State) (v : Int) : (s.setPc v).out = s.out := rfl

@[simp] theorem State.advance_cfg (s : State) (n : Int) : (s.advance n).cfg = s.cfg := rfl
@[simp] theorem State.advance_mem (s : State) (n : Int) : (s.advance n).mem = s.mem := rfl
@[simp] theorem State.advance_regs (s : State) (n : Int) : (s.advance n).regs = s.regs := rfl
@[simp] theorem State.advance_pc (s : State) (n : Int) : (s.advance n).pc = s.pc + n := rfl
@[simp] theorem State.advance_fl (s : State) (n : Int) : (s.advance n).fl = s.fl := rfl
@[simp] theorem State.advance_latch (s : State) (n : Int) : (s.advance n).latch = s.latch := rfl
@[simp] theorem State.advance_running (s : State) (n : Int) : (s.advance n).running = s.running := rfl
@[simp] theorem State.advance_fault (s : State) (n : Int) : (s.advance n).fault = s.fault := rfl
@[simp] theorem State.advance_out (s : State) (n : Int) : (s.advance n).out = s.out := rfl

@[simp] theorem State.setFl_cfg (s : State) (v : Byte) : (s.setFl v).cfg = s.cfg := rfl
@[simp] theorem State.setFl_mem (s : State) (v : Byte) : (s.setFl v).mem = s.mem := rfl
@[simp] theorem State.setFl_regs (s : State) (v : Byte) : (s.setFl v).regs = s.regs := rfl
@[simp] theorem State.setFl_pc (s : State) (v : Byte) : (s.setFl v).pc = s.pc := rfl
@[simp] theorem State.setFl_fl (s : State) (v : Byte) : (s.setFl v).fl = v := rfl
@[simp] theorem State.setFl_latch (s : State) (v : Byte) : (s.setFl v).latch = s.latch := rfl
@[simp] theorem State.setFl_running (s : State) (v : Byte) : (s.setFl v).running = s.running := rfl
@[simp] theorem State.setFl_fault (s : State) (v : Byte) : (s.setFl v).fault = s.fault := rfl
@[simp] theorem State.setFl_out (s : State) (v : Byte) : (s.setFl v).out = s.out := rfl

@[simp] theorem State.setLatch_cfg (s : State) (v : Int) : (s.setLatch v).cfg = s.cfg := rfl
@[simp] theorem State.setLatch_mem (s : State) (v : Int) : (s.setLatch v).mem = s.mem := rfl
@[simp] theorem State.setLatch_regs (s : State) (v : Int) : (s.setLatch v).regs = s.regs := rfl
@[simp] theorem State.setLatch_pc (s : State) (v : Int) : (s.setLatch v).pc = s.pc := rfl
@[simp] theorem State.setLatch_fl (s : State) (v : Int) : (s.setLatch v).fl = s.fl := rfl
@[simp] theorem State.setLatch_latch (s : State) (v : Int) : (s.setLatch v).latch = some v := rfl
@[simp] theorem State.setLatch_running (s : State) (v : Int) : (s.setLatch v).running = s.running := rfl
@[simp] theorem State.setLatch_fault (s : State) (v : Int) : (s.setLatch v).fault = s.fault := rfl
@[simp] theorem State.setLatch_out (s : State) (v : Int) : (s.setLatch v).out = s.out := rfl

@[simp] theorem State.emit_cfg (s : State) (v : Int) : (s.emit v).cfg = s.cfg := rfl
@[simp] theorem State.emit_mem (s : State) (v : Int) : (s.emit v).mem = s.mem := rfl
@[simp] theorem State.emit_regs (s : State) (v : Int) : (s.emit v).regs = s.regs := rfl
@[simp] theorem State.emit_pc (s : State) (v : Int) : (s.emit v).pc = s.pc := rfl
@[simp] theorem State.emit_fl (s : State) (v : Int) : (s.emit v).fl = s.fl := rfl
@[simp] theorem State.emit_latch (s : State) (v : Int) : (s.emit v).latch = s.latch := rfl
@[simp] theorem State.emit_running (s : State) (v : Int) : (s.emit v).running = s.running := rfl
@[simp] theorem State.emit_fault (s : State) (v : Int) : (s.emit v).fault = s.fault := rfl
@[simp] theorem State.emit_out (s : State) (v : Int) : (s.emit v).out = s.out ++ [v] := rfl

@[simp] theorem State.halt_cfg (s : State) : s.halt.cfg = s.cfg := rfl
@[simp] theorem State.halt_mem (s : State) : s.halt.mem = s.mem := rfl
@[simp] theorem State.halt_regs (s : State) : s.halt.regs = s.regs := rfl
@[simp] theorem State.halt_pc (s : State) : s.halt.pc = s.pc := rfl
@[simp] theorem State.halt_fl (s : State) : s.halt.fl = s.fl := rfl
@[simp] theorem State.halt_latch (s : State) : s.halt.latch = s.latch := rfl
@[simp] theorem State.halt_running (s : State) : s.halt.running = false := rfl
@[simp] theorem State.halt_fault (s : State) : s.halt.fault = s.fault := rfl
@[simp] theorem State.halt_out (s : State) : s.halt.out = s.out := rfl

@[simp] theorem State.setMem_cfg (s : State) (m : Memory) : (s.setMem m).cfg = s.cfg := rfl
@[simp] theorem State.setMem_mem (s : State) (m : Memory) : (s.setMem m).mem = m := rfl
@[simp] theorem State.setMem_regs (s : State) (m : Memory) : (s.setMem m).regs = s.regs := rfl
@[simp] theorem State.setMem_pc (s : State) (m : Memory) : (s.setMem m).pc = s.pc := rfl
@[simp] theorem State.setMem_fl (s : State) (m : Memory) : (s.setMem m).fl = s.fl := rfl
@[simp] theorem State.setMem_latch (s : State) (m : Memory) : (s.setMem m).latch = s.latch := rfl
@[simp] theorem State.setMem_running (s : State) (m : Memory) : (s.setMem m).running = s.running := rfl
@[simp] theorem State.setMem_fault (s : State) (m : Memory) : (s.setMem m).fault = s.fault := rfl
@[simp] theorem State.setMem_out (s : State) (m : Memory) : (s.setMem m).out = s.out := rfl

@[simp] theorem State.raise_cfg (s : State) (k : FaultCause) : (s.raise k).cfg = s.cfg := rfl
@[simp] theorem State.raise_mem (s : State) (k : FaultCause) : (s.raise k).mem = s.mem := rfl
@[simp] theorem State.raise_regs (s : State) (k : FaultCause) : (s.raise k).regs = s.regs := rfl
@[simp] theorem State.raise_pc (s : State) (k : FaultCause) : (s.raise k).pc = s.pc := rfl
@[simp] theorem State.raise_fl (s : State) (k : FaultCause) : (s.raise k).fl = s.fl := rfl
@[simp] theorem State.raise_latch (s : State) (k : FaultCause) : (s.raise k).latch = s.latch := rfl
@[simp] theorem State.raise_running (s : State) (k : FaultCause) : (s.raise k).running = false := rfl
@[simp] theorem State.raise_fault (s : State) (k : FaultCause) : (s.raise k).fault = some ⟨k, s.pc⟩ := rfl
@[simp] theorem State.raise_out (s : State) (k : FaultCause) : (s.raise k).out = s.out := rfl

@[simp] theorem State.decSp_cfg (s : State) : s.decSp.cfg = s.cfg := rfl
@[simp] theorem State.decSp_mem (s : State) : s.decSp.mem = s.mem := rfl
@[simp] theorem State.decSp_regs (s : State) : s.decSp.regs = s.regs.set 7 (s.x 7 - 1) := rfl
@[simp] theorem State.decSp_pc (s : State) : s.decSp.pc = s.pc := rfl
@[simp] theorem State.decSp_fl (s : State) : s.decSp.fl = s.fl := rfl
@[simp] theorem State.decSp_latch (s : State) : s.decSp.latch = s.latch := rfl
@[simp] theorem State.decSp_running (s : State) : s.decSp.running = s.running := rfl
@[simp] theorem State.decSp_fault (s : State) : s.decSp.fault = s.fault := rfl
@[simp] theorem State.decSp_out (s : State) : s.decSp.out = s.out := rfl

@[simp] theorem State.incSp_cfg (s : State) : s.incSp.cfg = s.cfg := rfl
@[simp] theorem State.incSp_mem (s : State) : s.incSp.mem = s.mem := rfl
@[simp] theorem State.incSp_regs (s : State) : s.incSp.regs = s.regs.set 7 (s.x 7 + 1) := rfl
@[simp] theorem State.incSp_pc (s : State) : s.incSp.pc = s.pc := rfl
@[simp] theorem State.incSp_fl (s : State) : s.incSp.fl = s.fl := rfl
@[simp] theorem State.incSp_latch (s : State) : s.incSp.latch = s.latch := rfl
@[simp] theorem State.incSp_running (s : State) : s.incSp.running = s.running := rfl
@[simp] theorem State.incSp_fault (s : State) : s.incSp.fault = s.fault := rfl
@[simp] theorem State.incSp_out (s : State) : s.incSp.out = s.out := rfl

/-- A register write is read back, and leaves every other register alone. -/
@[simp] theorem Regs.get_set (r : Regs) (i j : Fin 8) (v : Int) :
    (r.set i v).get j = if j = i then v else r.get j := by
  fin_cases i <;> fin_cases j <;> rfl

/-- A register file is its eight values. -/
theorem Regs.ext_get {r q : Regs} (h : ∀ i, r.get i = q.get i) : r = q := by
  cases r
  cases q
  simpa using ⟨h 0, h 1, h 2, h 3, h 4, h 5, h 6, h 7⟩

theorem State.x_eq (s : State) (i : Fin 8) : s.x i = s.regs.get i := rfl

theorem State.sp_eq (s : State) : s.sp = s.x 7 := rfl

theorem State.readByte_eq (s : State) (a : Nat) : s.readByte a = s.mem.read a := rfl

/-- The register values of a state whose register file is written out. -/
theorem State.x_of_regs {s : State} {r : Regs} (h : s.regs = r) (j : Fin 8) : s.x j = r.get j := congrArg (Regs.get · j) h

@[simp] theorem State.setX_x (s : State) (i j : Fin 8) (v : Int) : (s.setX i v).x j = if j = i then v else s.x j :=
  Regs.get_set s.regs i j v

@[simp] theorem State.decSp_x (s : State) (j : Fin 8) : s.decSp.x j = if j = 7 then s.x 7 - 1 else s.x j :=
  Regs.get_set s.regs spIndex j _

@[simp] theorem State.incSp_x (s : State) (j : Fin 8) : s.incSp.x j = if j = 7 then s.x 7 + 1 else s.x j :=
  Regs.get_set s.regs spIndex j _

@[simp] theorem State.decSp_sp (s : State) : s.decSp.sp = s.x 7 - 1 := rfl

@[simp] theorem State.incSp_sp (s : State) : s.incSp.sp = s.x 7 + 1 := rfl

@[simp] theorem State.pushAddress_eq (s : State) : s.pushAddress = s.x 7 - 1 := rfl

@[simp] theorem State.setX_readByte (s : State) (i : Fin 8) (v : Int) (a : Nat) : (s.setX i v).readByte a = s.readByte a := rfl
@[simp] theorem State.setPc_x (s : State) (v : Int) (j : Fin 8) : (s.setPc v).x j = s.x j := rfl
@[simp] theorem State.setPc_sp (s : State) (v : Int) : (s.setPc v).sp = s.sp := rfl
@[simp] theorem State.setPc_readByte (s : State) (v : Int) (a : Nat) : (s.setPc v).readByte a = s.readByte a := rfl
@[simp] theorem State.advance_x (s : State) (n : Int) (j : Fin 8) : (s.advance n).x j = s.x j := rfl
@[simp] theorem State.advance_sp (s : State) (n : Int) : (s.advance n).sp = s.sp := rfl
@[simp] theorem State.advance_readByte (s : State) (n : Int) (a : Nat) : (s.advance n).readByte a = s.readByte a := rfl
@[simp] theorem State.setFl_x (s : State) (v : Byte) (j : Fin 8) : (s.setFl v).x j = s.x j := rfl
@[simp] theorem State.setFl_sp (s : State) (v : Byte) : (s.setFl v).sp = s.sp := rfl
@[simp] theorem State.setFl_readByte (s : State) (v : Byte) (a : Nat) : (s.setFl v).readByte a = s.readByte a := rfl
@[simp] theorem State.setLatch_x (s : State) (v : Int) (j : Fin 8) : (s.setLatch v).x j = s.x j := rfl
@[simp] theorem State.setLatch_sp (s : State) (v : Int) : (s.setLatch v).sp = s.sp := rfl
@[simp] theorem State.setLatch_readByte (s : State) (v : Int) (a : Nat) : (s.setLatch v).readByte a = s.readByte a := rfl
@[simp] theorem State.emit_x (s : State) (v : Int) (j : Fin 8) : (s.emit v).x j = s.x j := rfl
@[simp] theorem State.emit_sp (s : State) (v : Int) : (s.emit v).sp = s.sp := rfl
@[simp] theorem State.emit_readByte (s : State) (v : Int) (a : Nat) : (s.emit v).readByte a = s.readByte a := rfl
@[simp] theorem State.halt_x (s : State) (j : Fin 8) : s.halt.x j = s.x j := rfl
@[simp] theorem State.halt_sp (s : State) : s.halt.sp = s.sp := rfl
@[simp] theorem State.halt_readByte (s : State) (a : Nat) : s.halt.readByte a = s.readByte a := rfl
@[simp] theorem State.setMem_x (s : State) (m : Memory) (j : Fin 8) : (s.setMem m).x j = s.x j := rfl
@[simp] theorem State.setMem_sp (s : State) (m : Memory) : (s.setMem m).sp = s.sp := rfl
@[simp] theorem State.raise_x (s : State) (k : FaultCause) (j : Fin 8) : (s.raise k).x j = s.x j := rfl
@[simp] theorem State.raise_sp (s : State) (k : FaultCause) : (s.raise k).sp = s.sp := rfl
@[simp] theorem State.raise_readByte (s : State) (k : FaultCause) (a : Nat) : (s.raise k).readByte a = s.readByte a := rfl
@[simp] theorem State.decSp_readByte (s : State) (a : Nat) : s.decSp.readByte a = s.readByte a := rfl
@[simp] theorem State.incSp_readByte (s : State) (a : Nat) : s.incSp.readByte a = s.readByte a := rfl
@[simp] theorem State.setMem_readByte (s : State) (m : Memory) (a : Nat) : (s.setMem m).readByte a = m.read a := rfl

end Sys2Proof.Machine
end

