-- ==== Sys2Proof/Laws/Memory.lean ====
section
/-! SUPPORT. The memory's laws: a write is read back and leaves every other cell alone, and it keeps the canonical form. -/

namespace Sys2Proof.Machine

@[simp] theorem Memory.read_nil (a : Nat) : Memory.read [] a = unlistedByte := rfl

theorem Memory.wf_nil : Memory.wf [] := by decide

/-- The form of a memory with a first cell: that cell is listed by right, lies below the others, and they are in form. -/
theorem Memory.wf_cons {c : Host.Cell} {m : Memory} :
    Memory.wf (c :: m) ↔ (∀ d ∈ m, c.1 < d.1) ∧ c.2 ≠ unlistedByte ∧ c.1 < memSize ∧ Memory.wf m := by
  simp only [Memory.wf, List.pairwise_cons, List.mem_cons, forall_eq_or_imp]
  tauto

/-- A cell below every listed one reads as unlisted. -/
theorem Memory.read_of_lt {m : Memory} {a : Nat} (h : ∀ d ∈ m, a < d.1) : Memory.read m a = unlistedByte := by
  induction m with
  | nil => rfl
  | cons c m ih =>
    have hc := h c (by simp)
    simp [Memory.read, Nat.ne_of_lt hc, ih fun d hd => h d (by simp [hd])]

/-- A cell outside memory reads as unlisted. -/
theorem Memory.read_of_wf {m : Memory} (h : m.wf) {a : Nat} (ha : memSize ≤ a) : Memory.read m a = unlistedByte := by
  induction m with
  | nil => rfl
  | cons c m ih =>
    obtain ⟨-, -, hc, hm⟩ := Memory.wf_cons.1 h
    simp [Memory.read, Nat.ne_of_gt (Nat.lt_of_lt_of_le hc ha), ih hm]

/-- Reading behind a cell put in front. -/
theorem Memory.read_cons {m : Memory} {a : Nat} (h : ∀ d ∈ m, a < d.1) (v : Byte) (b : Nat) :
    Memory.read (Memory.cons a v m) b = if b = a then v else Memory.read m b := by
  unfold Memory.cons
  split
  · next hv =>
    split
    · next hb => rw [hb, hv, Memory.read_of_lt h]
    · rfl
  · rfl

/-- Read after write. -/
theorem Memory.read_write {m : Memory} (h : m.wf) (a : Nat) (v : Byte) (b : Nat) :
    Memory.read (Memory.write m a v) b = if b = a then v else Memory.read m b := by
  induction m with
  | nil => exact Memory.read_cons (m := []) (by simp) v b
  | cons c m ih =>
    obtain ⟨hlt, -, -, hm⟩ := Memory.wf_cons.1 h
    obtain ⟨k, w⟩ := c
    simp only [Memory.write]
    split
    · next hak =>
      refine Memory.read_cons (fun d hd => ?_) v b
      rcases List.mem_cons.1 hd with rfl | hd
      · exact hak
      · exact Nat.lt_trans hak (hlt d hd)
    · split
      · next hak =>
        subst hak
        rw [Memory.read_cons hlt]
        by_cases hb : b = a <;> simp [Memory.read, hb]
      · next hak =>
        by_cases hb : b = k
        · simp [Memory.read, hb, Ne.symm hak]
        · simp [Memory.read, hb, ih hm]

/-- A write leaves every other cell alone, in any memory. -/
theorem Memory.read_write_of_ne (m : Memory) {a b : Nat} (v : Byte) (h : b ≠ a) :
    Memory.read (Memory.write m a v) b = Memory.read m b := by
  have hc : ∀ rest : Memory, Memory.read (Memory.cons a v rest) b = Memory.read rest b := by
    intro rest
    unfold Memory.cons
    split <;> simp [Memory.read, h]
  induction m with
  | nil => exact hc []
  | cons c m ih =>
    obtain ⟨k, w⟩ := c
    simp only [Memory.write]
    split
    · exact hc _
    · split
      · next hak =>
        subst hak
        simp [hc, Memory.read, h]
      · simp [Memory.read, ih]

/-- Every address listed behind a cell put in front. -/
theorem Memory.mem_cons_cell {m : Memory} {a : Nat} {v : Byte} {d : Host.Cell} (h : d ∈ Memory.cons a v m) :
    d.1 = a ∨ d ∈ m := by
  unfold Memory.cons at h
  split at h
  · exact .inr h
  · exact (List.mem_cons.1 h).imp (congrArg Prod.fst) id

/-- Every address a write lists was listed before, or is the one written. -/
theorem Memory.mem_write {m : Memory} {a : Nat} {v : Byte} {d : Host.Cell} (h : d ∈ Memory.write m a v) :
    d.1 = a ∨ d ∈ m := by
  induction m with
  | nil => exact Memory.mem_cons_cell h
  | cons c m ih =>
    simp only [Memory.write] at h
    split at h
    · exact Memory.mem_cons_cell h
    · split at h
      · exact (Memory.mem_cons_cell h).imp id (List.mem_cons_of_mem _)
      · rcases List.mem_cons.1 h with rfl | h
        · simp
        · exact (ih h).imp id (List.mem_cons_of_mem _)

/-- A cell put in front keeps the canonical form. -/
theorem Memory.wf_cons_cell {m : Memory} (h : m.wf) {a : Nat} (ha : a < memSize) (hlt : ∀ d ∈ m, a < d.1) (v : Byte) :
    Memory.wf (Memory.cons a v m) := by
  unfold Memory.cons
  split
  · exact h
  · next hv => exact Memory.wf_cons.2 ⟨hlt, hv, ha, h⟩

/-- A write inside memory keeps the canonical form. -/
theorem Memory.write_wf {m : Memory} (h : m.wf) {a : Nat} (ha : a < memSize) (v : Byte) :
    Memory.wf (Memory.write m a v) := by
  induction m with
  | nil => exact Memory.wf_cons_cell h ha (by simp) v
  | cons c m ih =>
    obtain ⟨hlt, hw, hk, hm⟩ := Memory.wf_cons.1 h
    obtain ⟨k, w⟩ := c
    simp only [Memory.write]
    split
    · next hak =>
      refine Memory.wf_cons_cell h ha (fun d hd => ?_) v
      rcases List.mem_cons.1 hd with rfl | hd
      · exact hak
      · exact Nat.lt_trans hak (hlt d hd)
    · split
      · next hak =>
        subst hak
        exact Memory.wf_cons_cell hm ha hlt v
      · next h1 h2 =>
        refine Memory.wf_cons.2 ⟨fun d hd => ?_, hw, hk, ih hm⟩
        rcases Memory.mem_write hd with hd | hd
        · omega
        · exact hlt d hd

/-- Consecutive writes inside memory keep the canonical form. -/
theorem Memory.writeBytes_wf {m : Memory} (h : m.wf) {a : Nat} {bytes : List Byte}
    (ha : a + bytes.length ≤ memSize) : Memory.wf (Memory.writeBytes m a bytes) := by
  induction bytes generalizing m a with
  | nil => exact h
  | cons v bytes ih =>
    simp only [List.length_cons] at ha
    exact ih (Memory.write_wf h (by omega) v) (by omega)

/-- Consecutive writes are read back, and leave every other cell alone. -/
theorem Memory.read_writeBytes {m : Memory} (h : m.wf) {a : Nat} {bytes : List Byte}
    (ha : a + bytes.length ≤ memSize) (b : Nat) :
    Memory.read (Memory.writeBytes m a bytes) b =
      if a ≤ b ∧ b < a + bytes.length then bytes.getD (b - a) unlistedByte else Memory.read m b := by
  induction bytes generalizing m a with
  | nil =>
    have : ¬ (a ≤ b ∧ b < a + ([] : List Byte).length) := by simp
    rw [if_neg this]
    rfl
  | cons v bytes ih =>
    simp only [List.length_cons] at ha
    rw [Memory.writeBytes, ih (Memory.write_wf h (by omega) v) (by omega), Memory.read_write h, List.length_cons]
    by_cases hb : b = a
    · subst hb
      have h1 : ¬ (b + 1 ≤ b ∧ b < b + 1 + bytes.length) := by omega
      have h2 : b ≤ b ∧ b < b + (bytes.length + 1) := by omega
      rw [if_neg h1, if_pos h2, if_pos rfl]
      simp
    · by_cases hin : a + 1 ≤ b ∧ b < a + 1 + bytes.length
      · have h2 : a ≤ b ∧ b < a + (bytes.length + 1) := by omega
        obtain ⟨n, rfl⟩ : ∃ n, b = a + 1 + n := ⟨b - (a + 1), by omega⟩
        have e1 : a + 1 + n - (a + 1) = n := by omega
        have e2 : a + 1 + n - a = n + 1 := by omega
        rw [if_pos hin, if_pos h2, e1, e2]
        rfl
      · have h2 : ¬ (a ≤ b ∧ b < a + (bytes.length + 1)) := by omega
        rw [if_neg hin, if_neg hb, if_neg h2]

end Sys2Proof.Machine
end

