-- ==== Sys2Proof/Laws/Ops.lean ====
section
/-! SUPPORT. What each shared operation can do, said once: when it succeeds and with what, and the fault it raises
otherwise. -/

namespace Sys2Proof.Machine

/-! ## The order of checks -/

/-- A sequence of two operations succeeds when both do. -/
theorem bind_eq_ok {α β : Type} {x : Except FaultCause α} {f : α → Except FaultCause β} {b : β} :
    (x >>= f) = .ok b ↔ ∃ a, x = .ok a ∧ f a = .ok b := by
  cases x with
  | ok a => exact ⟨fun h => ⟨a, rfl, h⟩, by rintro ⟨_, h, h'⟩; cases h; exact h'⟩
  | error k =>
    constructor
    · intro h
      cases h
    · rintro ⟨_, h, _⟩
      cases h

/-- A sequence of two operations raises the first fault. -/
theorem bind_eq_error {α β : Type} {x : Except FaultCause α} {f : α → Except FaultCause β} {k : FaultCause} :
    (x >>= f) = .error k ↔ x = .error k ∨ ∃ a, x = .ok a ∧ f a = .error k := by
  cases x with
  | ok a =>
    constructor
    · exact fun h => .inr ⟨a, rfl, h⟩
    · rintro (h | ⟨_, h, h'⟩)
      · cases h
      · cases h; exact h'
  | error j =>
    constructor
    · exact fun h => .inl (by cases h; rfl)
    · rintro (h | ⟨_, h, _⟩)
      · cases h; rfl
      · cases h

@[simp] theorem bind_ok {α β : Type} (a : α) (f : α → Except FaultCause β) : (Except.ok a >>= f) = f a := rfl

@[simp] theorem bind_error {α β : Type} (k : FaultCause) (f : α → Except FaultCause β) :
    (Except.error k >>= f) = .error k := rfl

@[simp] theorem pure_eq_ok {α : Type} (a : α) : (pure a : Except FaultCause α) = .ok a := rfl

/-! ## The end of a step -/

@[simp] theorem commit_ok (s t : State) : commit s (.ok t) = .next t := rfl

@[simp] theorem commit_error (s : State) (k : FaultCause) : commit s (.error k) = .next (s.raise k) := rfl

/-- A meaning answers the completed instruction's state, or the state before it with the fault entered. -/
theorem commit_eq_next {s t : State} {r : Except FaultCause State} :
    commit s r = .next t ↔ r = .ok t ∨ ∃ k, r = .error k ∧ t = s.raise k := by
  cases r with
  | ok u => simp
  | error k =>
    simp only [commit_error, Host.Outcome.next.injEq, reduceCtorEq, Except.error.injEq, false_or]
    exact ⟨fun h => ⟨k, rfl, h.symm⟩, by rintro ⟨_, rfl, rfl⟩; rfl⟩

/-- A meaning always answers a next state. -/
theorem commit_total (s : State) (r : Except FaultCause State) : ∃ t, commit s r = .next t := by
  cases r <;> exact ⟨_, rfl⟩

/-! ## Operands -/

theorem regIndex_of_lt {n : Byte} (h : n.toNat < 8) : regIndex n = .ok ⟨n.toNat, h⟩ := dif_pos h

theorem regIndex_of_not_lt {n : Byte} (h : ¬ n.toNat < 8) : regIndex n = .error (.outOfRangeAccess (.register n.toNat)) :=
  dif_neg h

/-- A register field succeeds with the register it names, for bytes 0..7 only. -/
theorem regIndex_eq_ok {n : Byte} {a : Fin 8} : regIndex n = .ok a ↔ n.toNat = a.val := by
  by_cases h : n.toNat < 8
  · simp [regIndex_of_lt h, Fin.ext_iff]
  · simp only [regIndex_of_not_lt h, reduceCtorEq, false_iff]
    have := a.isLt
    omega

theorem regIndex_eq_error {n : Byte} {k : FaultCause} :
    regIndex n = .error k ↔ ¬ n.toNat < 8 ∧ k = .outOfRangeAccess (.register n.toNat) := by
  by_cases h : n.toNat < 8
  · simp [regIndex_of_lt h, h]
  · simp [regIndex_of_not_lt h, h, eq_comm]

theorem requireDecodable_of {s : State} {op : Opcode} (h : s.cfg.decodable op = true) :
    s.requireDecodable op = .ok () := if_pos h

theorem requireDecodable_of_not {s : State} {op : Opcode} (h : ¬ s.cfg.decodable op = true) :
    s.requireDecodable op = .error (.illegalInstruction (s.cfg.opcodeMap.byteOf op)) := if_neg h

theorem zext8_bounds (b : Byte) : 0 ≤ zext8 b ∧ zext8 b ≤ 255 := by
  have := b.isLt
  unfold zext8
  omega

/-- A byte value survives being stored and read back. -/
theorem zext8_ofInt {v : Int} (h : isByteValue v) : zext8 (BitVec.ofInt 8 v) = v := by
  unfold zext8
  rw [BitVec.toNat_ofInt]
  have := h.1
  have := h.2
  omega

/-! ## Memory accesses -/

theorem memRead_of {s : State} {a : Int} (h : inMemory a) : s.memRead a = .ok (s.readByte a.toNat) := if_pos h

theorem memRead_of_not {s : State} {a : Int} (h : ¬ inMemory a) :
    s.memRead a = .error (.outOfRangeAccess (.memory a)) := if_neg h

theorem memRead_eq_ok {s : State} {a : Int} {v : Byte} :
    s.memRead a = .ok v ↔ inMemory a ∧ s.readByte a.toNat = v := by
  by_cases h : inMemory a
  · rw [memRead_of h]
    exact ⟨fun e => ⟨h, Except.ok.inj e⟩, fun e => congrArg _ e.2⟩
  · simp [memRead_of_not h, h]

theorem memRead_eq_error {s : State} {a : Int} {k : FaultCause} :
    s.memRead a = .error k ↔ ¬ inMemory a ∧ k = .outOfRangeAccess (.memory a) := by
  by_cases h : inMemory a
  · simp [memRead_of h, h]
  · simp [memRead_of_not h, h, eq_comm]

theorem memWrite_of {s : State} {a v : Int} (ha : inMemory a) (hv : isByteValue v) :
    s.memWrite a v = .ok (s.setMem (s.mem.write a.toNat (BitVec.ofInt 8 v))) := by
  unfold State.memWrite
  rw [if_neg (not_not.2 ha), if_neg (not_not.2 hv)]

theorem memWrite_of_not_inMemory {s : State} {a v : Int} (ha : ¬ inMemory a) :
    s.memWrite a v = .error (.outOfRangeAccess (.memory a)) := if_pos ha

theorem memWrite_of_not_byte {s : State} {a v : Int} (ha : inMemory a) (hv : ¬ isByteValue v) :
    s.memWrite a v = .error (.valueOutOfDomain (.store v)) := by
  unfold State.memWrite
  rw [if_neg (not_not.2 ha), if_pos hv]

theorem memWrite_eq_ok {s t : State} {a v : Int} :
    s.memWrite a v = .ok t ↔
      inMemory a ∧ isByteValue v ∧ t = s.setMem (s.mem.write a.toNat (BitVec.ofInt 8 v)) := by
  by_cases ha : inMemory a
  · by_cases hv : isByteValue v
    · rw [memWrite_of ha hv]
      exact ⟨fun e => ⟨ha, hv, (Except.ok.inj e).symm⟩, fun e => congrArg _ e.2.2.symm⟩
    · simp [memWrite_of_not_byte ha hv, hv]
  · simp [memWrite_of_not_inMemory ha, ha]

/-- A store changes memory alone. -/
theorem memWrite_frame {s t : State} {a v : Int} (h : s.memWrite a v = .ok t) : t = s.setMem t.mem := by
  obtain ⟨-, -, rfl⟩ := memWrite_eq_ok.1 h
  rfl

/-- What a byte reads as after a store, in a memory in form. -/
theorem memWrite_readByte {s t : State} {a v : Int} (hm : s.mem.wf) (h : s.memWrite a v = .ok t) (b : Nat) :
    t.readByte b = if (b : Int) = a then BitVec.ofInt 8 v else s.readByte b := by
  obtain ⟨⟨h0, -⟩, -, rfl⟩ := memWrite_eq_ok.1 h
  rw [State.setMem_readByte, Memory.read_write hm]
  have : b = a.toNat ↔ (b : Int) = a := by omega
  simp only [this, State.readByte_eq]

/-- A store keeps the memory's form. -/
theorem memWrite_wf {s t : State} {a v : Int} (hm : s.mem.wf) (h : s.memWrite a v = .ok t) : t.mem.wf := by
  obtain ⟨⟨h0, h1⟩, -, rfl⟩ := memWrite_eq_ok.1 h
  have h2 : a ≤ 255 := h1
  exact Memory.write_wf hm (by show a.toNat < 256; omega) _

/-- A pop succeeds when the stack pointer is in memory: the register takes the byte, then the pointer moves. -/
theorem popInto_eq_ok {s t : State} {i : Fin 8} :
    s.popInto i = .ok t ↔ inMemory s.sp ∧ t = (s.setX i (zext8 (s.readByte s.sp.toNat))).incSp := by
  unfold State.popInto
  simp only [bind_eq_ok, memRead_eq_ok, pure_eq_ok, Except.ok.injEq]
  constructor
  · rintro ⟨v, ⟨h, rfl⟩, rfl⟩
    exact ⟨h, rfl⟩
  · rintro ⟨h, rfl⟩
    exact ⟨_, ⟨h, rfl⟩, rfl⟩

theorem popInto_eq_error {s : State} {i : Fin 8} {k : FaultCause} :
    s.popInto i = .error k ↔ ¬ inMemory s.sp ∧ k = .outOfRangeAccess (.memory s.sp) := by
  unfold State.popInto
  simp [bind_eq_error, memRead_eq_error]

/-! ## Fetch -/

/-- The fetch succeeds for a pc in 0..253, with the three bytes there. -/
theorem fetch_eq_ok {s : State} {w : Window} :
    s.fetch = .ok w ↔
      0 ≤ s.pc ∧ s.pc ≤ 253 ∧ s.readByte s.pc.toNat = w.ir ∧ s.readByte (s.pc + 1).toNat = w.a ∧
        s.readByte (s.pc + 2).toNat = w.b := by
  unfold State.fetch
  simp only [bind_eq_ok, memRead_eq_ok, pure_eq_ok, Except.ok.injEq, inMemory, lastAddress]
  constructor
  · rintro ⟨_, ⟨⟨h0, -⟩, rfl⟩, _, ⟨-, rfl⟩, _, ⟨⟨-, h2⟩, rfl⟩, rfl⟩
    exact ⟨h0, by omega, rfl, rfl, rfl⟩
  · rintro ⟨h0, h1, hi, ha, hb⟩
    exact ⟨_, ⟨by omega, hi⟩, _, ⟨by omega, ha⟩, _, ⟨by omega, hb⟩, rfl⟩

/-- A failed fetch reports the first address out of range. -/
theorem fetch_eq_error {s : State} {k : FaultCause} :
    s.fetch = .error k ↔
      (¬ inMemory s.pc ∧ k = .outOfRangeAccess (.memory s.pc)) ∨
        ((s.pc = 254 ∨ s.pc = 255) ∧ k = .outOfRangeAccess (.memory 256)) := by
  unfold State.fetch
  simp only [bind_eq_error, memRead_eq_error, memRead_eq_ok, pure_eq_ok, reduceCtorEq, and_false, exists_false, or_false,
    inMemory, lastAddress]
  constructor
  · rintro (⟨h, rfl⟩ | ⟨_, ⟨h, -⟩, (⟨h1, rfl⟩ | ⟨_, ⟨h1, -⟩, ⟨h2, rfl⟩⟩)⟩)
    · exact .inl ⟨h, rfl⟩
    · have : s.pc = 255 := by omega
      exact .inr ⟨.inr this, by rw [this]; rfl⟩
    · have : s.pc = 254 := by omega
      exact .inr ⟨.inl this, by rw [this]; rfl⟩
  · rintro (⟨h, rfl⟩ | ⟨h | h, rfl⟩)
    · exact .inl ⟨h, rfl⟩
    · exact .inr ⟨_, ⟨by omega, rfl⟩, .inr ⟨_, ⟨by omega, rfl⟩, by rw [h]; decide⟩⟩
    · exact .inr ⟨_, ⟨by omega, rfl⟩, .inl (by rw [h]; decide)⟩

end Sys2Proof.Machine
end

