-- ==== Sys2Proof/Laws/Exec.lean ====
section
/-! SUPPORT. What one instruction can do (`exec_cases`) and what one step can do (`step_cases`), said once. Frames and
invariants follow from these two. -/

namespace Sys2Proof.Machine

/-! ## The ALU templates -/

/-- The faults an operation of the ALU's table can raise, and for which operands; an opcode outside the table raises
UnsupportedOperation. -/
theorem aluFunction_eq_error {op : Opcode} {u v : Int} {k : FaultCause} (h : aluFunction op u v = .error k) :
    (v = 0 ∧ (op = .div ∨ op = .mod) ∧ k = .divideByZero op) ∨
      (op = .div ∧ v ≠ 0 ∧ fmod u v ≠ 0 ∧ k = .valueOutOfDomain (.div u v)) ∨
        (v < 0 ∧ (op = .shl ∨ op = .shr) ∧ k = .valueOutOfDomain (.shift v)) ∨
          (op ∈ [Opcode.hlt, .ret, .push, .pop, .prn, .call, .jmp, .jeq, .jne, .ldi] ∧ k = .unsupportedOperation op) := by
  cases op <;> simp only [aluFunction, reduceCtorEq] at h
  case div =>
    split at h
    · next hv =>
      cases h
      exact .inl ⟨hv, .inl rfl, rfl⟩
    · next hv =>
      split at h
      · next hm =>
        cases h
        exact .inr (.inl ⟨rfl, hv, hm, rfl⟩)
      · cases h
  case mod =>
    split at h
    · next hv =>
      cases h
      exact .inl ⟨hv, .inr rfl, rfl⟩
    · cases h
  case shl =>
    split at h
    · next hv =>
      cases h
      exact .inr (.inr (.inl ⟨hv, .inl rfl, rfl⟩))
    · cases h
  case shr =>
    split at h
    · next hv =>
      cases h
      exact .inr (.inr (.inl ⟨hv, .inr rfl, rfl⟩))
    · cases h
  all_goals
    cases h
    exact .inr (.inr (.inr ⟨by decide, rfl⟩))

/-- The faults a binary ALU instruction can raise: not decodable, a field that is no register, or the operation's own. -/
theorem aluBinary_eq_error {op : Opcode} {ra rb : Byte} {s : State} {k : FaultCause} (h : aluBinary op ra rb s = .error k) :
    (s.cfg.decodable op = false ∧ k = .illegalInstruction (s.cfg.opcodeMap.byteOf op)) ∨
      (¬ isRegIndex ra ∧ k = registerFault ra) ∨ (isRegIndex ra ∧ ¬ isRegIndex rb ∧ k = registerFault rb) ∨
        ∃ a b : Fin 8, aluFunction op (s.x a) (s.x b) = .error k := by
  unfold aluBinary at h
  by_cases hd : s.cfg.decodable op = true
  · simp only [requireDecodable_of hd, bind_ok, bind_eq_error, regIndex_eq_error, regIndex_eq_ok, State.aluApply,
      pure_eq_ok, reduceCtorEq, and_false, exists_false, or_false] at h
    rcases h with ⟨ha, hk⟩ | ⟨a, ha, ⟨hb, hk⟩ | ⟨b, hb, hk⟩⟩
    · exact .inr (.inl ⟨ha, hk⟩)
    · exact .inr (.inr (.inl ⟨by have := a.isLt; unfold isRegIndex; omega, hb, hk⟩))
    · exact .inr (.inr (.inr ⟨a, b, hk⟩))
  · rw [requireDecodable_of_not hd] at h
    cases h
    exact .inl ⟨by simpa using hd, rfl⟩

/-- The faults a unary ALU instruction can raise. -/
theorem aluUnary_eq_error {op : Opcode} {ra : Byte} {s : State} {k : FaultCause} (h : aluUnary op ra s = .error k) :
    (s.cfg.decodable op = false ∧ k = .illegalInstruction (s.cfg.opcodeMap.byteOf op)) ∨
      (¬ isRegIndex ra ∧ k = registerFault ra) ∨ ∃ a : Fin 8, aluFunction op (s.x a) (s.x a) = .error k := by
  unfold aluUnary at h
  by_cases hd : s.cfg.decodable op = true
  · simp only [requireDecodable_of hd, bind_ok, bind_eq_error, regIndex_eq_error, regIndex_eq_ok, State.aluApply,
      pure_eq_ok, reduceCtorEq, and_false, exists_false, or_false] at h
    rcases h with ⟨ha, hk⟩ | ⟨a, ha, hk⟩
    · exact .inr (.inl ⟨ha, hk⟩)
    · exact .inr (.inr ⟨a, hk⟩)
  · rw [requireDecodable_of_not hd] at h
    cases h
    exact .inl ⟨by simpa using hd, rfl⟩

/-- A binary ALU instruction completes when it is decodable, both fields are registers and the operation has a value. -/
theorem aluBinary_eq_ok {op : Opcode} {ra rb : Byte} {s t : State} :
    aluBinary op ra rb s = .ok t ↔
      s.cfg.decodable op = true ∧ ∃ (a b : Fin 8) (v : Int), ra.toNat = a.val ∧ rb.toNat = b.val ∧
        aluFunction op (s.x a) (s.x b) = .ok v ∧ t = (s.setX a v).advance 3 := by
  unfold aluBinary
  by_cases h : s.cfg.decodable op = true
  · simp only [requireDecodable_of h, bind_ok, bind_eq_ok, regIndex_eq_ok, State.aluApply, pure_eq_ok, Except.ok.injEq, h,
      true_and]
    constructor
    · rintro ⟨a, ha, b, hb, _, ⟨v, hv, rfl⟩, rfl⟩
      exact ⟨a, b, v, ha, hb, hv, rfl⟩
    · rintro ⟨a, b, v, ha, hb, hv, rfl⟩
      exact ⟨a, ha, b, hb, _, ⟨v, hv, rfl⟩, rfl⟩
  · simp [requireDecodable_of_not h, h]

/-- A unary ALU instruction completes when it is decodable, its field is a register and the operation has a value. -/
theorem aluUnary_eq_ok {op : Opcode} {ra : Byte} {s t : State} :
    aluUnary op ra s = .ok t ↔
      s.cfg.decodable op = true ∧ ∃ (a : Fin 8) (v : Int), ra.toNat = a.val ∧
        aluFunction op (s.x a) (s.x a) = .ok v ∧ t = (s.setX a v).advance 3 := by
  unfold aluUnary
  by_cases h : s.cfg.decodable op = true
  · simp only [requireDecodable_of h, bind_ok, bind_eq_ok, regIndex_eq_ok, State.aluApply, pure_eq_ok, Except.ok.injEq, h,
      true_and]
    constructor
    · rintro ⟨a, ha, _, ⟨v, hv, rfl⟩, rfl⟩
      exact ⟨a, v, ha, hv, rfl⟩
    · rintro ⟨a, v, ha, hv, rfl⟩
      exact ⟨a, ha, _, ⟨v, hv, rfl⟩, rfl⟩
  · simp [requireDecodable_of_not h, h]

/-- With both fields registers and the mnemonic decodable, a binary ALU instruction is its operation. -/
theorem aluBinary_of {op : Opcode} {ra rb : Byte} {s : State} (h : s.cfg.decodable op = true) (ha : isRegIndex ra)
    (hb : isRegIndex rb) :
    aluBinary op ra rb s =
      (aluFunction op (s.x (regOf ra ha)) (s.x (regOf rb hb)) >>= fun v => .ok ((s.setX (regOf ra ha) v).advance 3)) := by
  unfold aluBinary State.aluApply
  rw [requireDecodable_of h, regIndex_of_lt ha, regIndex_of_lt hb]
  simp only [bind_ok, regOf]
  cases aluFunction op (s.x ⟨ra.toNat, ha⟩) (s.x ⟨rb.toNat, hb⟩) <;> rfl

/-- With its field a register and the mnemonic decodable, a unary ALU instruction is its operation. -/
theorem aluUnary_of {op : Opcode} {ra : Byte} {s : State} (h : s.cfg.decodable op = true) (ha : isRegIndex ra) :
    aluUnary op ra s =
      (aluFunction op (s.x (regOf ra ha)) (s.x (regOf ra ha)) >>= fun v => .ok ((s.setX (regOf ra ha) v).advance 3)) := by
  unfold aluUnary State.aluApply
  rw [requireDecodable_of h, regIndex_of_lt ha]
  simp only [bind_ok, regOf]
  cases aluFunction op (s.x ⟨ra.toNat, ha⟩) (s.x ⟨ra.toNat, ha⟩) <;> rfl

/-! ## One instruction -/

/-- The states a completed instruction leads to. The ALU's case leaves the written value open: `aluBinary_eq_ok` and
`aluUnary_eq_ok` say it. -/
inductive Completed (s : State) : Instr → State → Prop where
  | hlt : Completed s .hlt (s.halt.advance 1)
  | retLatch {ra : Byte} {a : Fin 8} {target : Int} (stack : s.cfg.retFromStack = false) (field : ra.toNat = a.val)
      (address : inMemory s.sp) (latch : s.latch = some target) :
      Completed s (.ret ra) ((s.setX a (zext8 (s.readByte s.sp.toNat))).incSp.setPc target)
  | retStack {ra : Byte} (stack : s.cfg.retFromStack = true) (address : inMemory s.sp) :
      Completed s (.ret ra) (s.incSp.setPc (zext8 (s.readByte s.sp.toNat)))
  | push {ra : Byte} {a : Fin 8} {u : State} (field : ra.toNat = a.val)
      (store : s.decSp.memWrite s.pushAddress (s.decSp.x a) = .ok u) : Completed s (.push ra) (u.advance 2)
  | pop {ra : Byte} {a : Fin 8} (field : ra.toNat = a.val) (address : inMemory s.sp) :
      Completed s (.pop ra) ((s.setX a (zext8 (s.readByte s.sp.toNat))).incSp.advance 2)
  | prn {ra : Byte} {a : Fin 8} (field : ra.toNat = a.val) : Completed s (.prn ra) ((s.emit (s.x a)).advance 2)
  | call {ra : Byte} {a : Fin 8} {u : State} (field : ra.toNat = a.val)
      (store : (s.setLatch (s.pc + 2)).decSp.memWrite s.pushAddress (s.pc + 2) = .ok u) :
      Completed s (.call ra) (u.setPc (u.x a))
  | jmp {ra : Byte} {a : Fin 8} (field : ra.toNat = a.val) : Completed s (.jmp ra) (s.setPc (s.x a))
  | jeq {ra : Byte} {a : Fin 8} (field : ra.toNat = a.val) :
      Completed s (.jeq ra) (s.setPc (if isEqualExactly s.fl then s.x a else s.pc + 2))
  | jne {ra : Byte} {a : Fin 8} (field : ra.toNat = a.val) :
      Completed s (.jne ra) (s.setPc (if isEqualExactly s.fl then s.pc + 2 else s.x a))
  | cmp {ra rb : Byte} {a b : Fin 8} (fieldA : ra.toNat = a.val) (fieldB : rb.toNat = b.val) :
      Completed s (.cmp ra rb) ((s.setFl (compareFlags (s.x a) (s.x b))).advance 3)
  | ldi {ra imm : Byte} {a : Fin 8} (field : ra.toNat = a.val) :
      Completed s (.ldi ra imm) ((s.setX a (zext8 imm)).advance 3)
  | alu {i : Instr} {ra : Byte} {a : Fin 8} {v : Int} (destination : aluDestination? i = some ra)
      (field : ra.toNat = a.val) : Completed s i ((s.setX a v).advance 3)

theorem completed_of_aluBinary {op : Opcode} {i : Instr} {ra rb : Byte} {s t : State} (hi : aluDestination? i = some ra)
    (h : aluBinary op ra rb s = .ok t) : Completed s i t := by
  obtain ⟨-, a, b, v, ha, -, -, rfl⟩ := aluBinary_eq_ok.1 h
  exact .alu hi ha

theorem completed_of_aluUnary {op : Opcode} {i : Instr} {ra : Byte} {s t : State} (hi : aluDestination? i = some ra)
    (h : aluUnary op ra s = .ok t) : Completed s i t := by
  obtain ⟨-, a, v, ha, -, rfl⟩ := aluUnary_eq_ok.1 h
  exact .alu hi ha

/-- An instruction that answers a next state has completed, or has entered a fault and changed nothing else. -/
theorem exec_cases {i : Instr} {s t : State} (h : exec i s = .next t) : Completed s i t ∨ ∃ k, t = s.raise k := by
  cases i
  case hlt =>
    cases h
    exact .inl .hlt
  case illegal ir =>
    cases h
    exact .inr ⟨_, rfl⟩
  all_goals refine (commit_eq_next.1 h).imp (fun h => ?_) (fun ⟨k, _, hk⟩ => ⟨k, hk⟩)
  case ret ra =>
    split at h
    · next hs =>
      simp only [retFromStack, bind_eq_ok, memRead_eq_ok, pure_eq_ok, Except.ok.injEq] at h
      obtain ⟨_, ⟨hm, rfl⟩, rfl⟩ := h
      exact .retStack hs hm
    · next hs =>
      simp only [retFromLatch, bind_eq_ok, regIndex_eq_ok, popInto_eq_ok] at h
      obtain ⟨a, ha, _, ⟨hm, rfl⟩, h⟩ := h
      split at h
      · cases h
      · next target hl =>
        cases h
        exact .retLatch (by simpa using hs) ha hm hl
  case push ra =>
    simp only [bind_eq_ok, regIndex_eq_ok, pure_eq_ok, Except.ok.injEq] at h
    obtain ⟨a, ha, u, hu, rfl⟩ := h
    exact .push ha hu
  case pop ra =>
    simp only [bind_eq_ok, regIndex_eq_ok, popInto_eq_ok, pure_eq_ok, Except.ok.injEq] at h
    obtain ⟨a, ha, _, ⟨hm, rfl⟩, rfl⟩ := h
    exact .pop ha hm
  case prn ra =>
    simp only [bind_eq_ok, regIndex_eq_ok, pure_eq_ok, Except.ok.injEq] at h
    obtain ⟨a, ha, rfl⟩ := h
    exact .prn ha
  case call ra =>
    simp only [bind_eq_ok, regIndex_eq_ok, pure_eq_ok, Except.ok.injEq] at h
    obtain ⟨a, ha, u, hu, rfl⟩ := h
    exact .call ha hu
  case jmp ra =>
    simp only [bind_eq_ok, regIndex_eq_ok, pure_eq_ok, Except.ok.injEq] at h
    obtain ⟨a, ha, rfl⟩ := h
    exact .jmp ha
  case jeq ra =>
    simp only [bind_eq_ok, regIndex_eq_ok, pure_eq_ok, Except.ok.injEq] at h
    obtain ⟨a, ha, rfl⟩ := h
    exact .jeq ha
  case jne ra =>
    simp only [bind_eq_ok, regIndex_eq_ok, pure_eq_ok, Except.ok.injEq] at h
    obtain ⟨a, ha, rfl⟩ := h
    exact .jne ha
  case cmp ra rb =>
    simp only [bind_eq_ok, regIndex_eq_ok, pure_eq_ok, Except.ok.injEq] at h
    obtain ⟨a, ha, b, hb, rfl⟩ := h
    exact .cmp ha hb
  case ldi ra imm =>
    simp only [bind_eq_ok, regIndex_eq_ok, pure_eq_ok, Except.ok.injEq] at h
    obtain ⟨a, ha, rfl⟩ := h
    exact .ldi ha
  case inc | dec | not => exact completed_of_aluUnary rfl h
  all_goals exact completed_of_aluBinary rfl h

/-! ## One step -/

/-- A step of a stopped CORE does nothing, a failed fetch enters a fault, and otherwise the decoded instruction runs. -/
theorem step_cases {s t : State} (h : step s = .next t) :
    (s.running = false ∧ t = s) ∨
      (s.running = true ∧ ∃ k, s.fetch = .error k ∧ t = s.raise k) ∨
        ∃ w, Fetches s w ∧ exec (decode s.cfg.opcodeMap w) s = .next t := by
  unfold step at h
  split at h
  · next hr =>
    split at h
    · next w hw =>
      obtain ⟨h0, h1, hi, ha, hb⟩ := fetch_eq_ok.1 hw
      exact .inr (.inr ⟨w, ⟨hr, h0, h1, hi, ha, hb⟩, h⟩)
    · next k hk => exact .inr (.inl ⟨hr, k, hk, by cases h; rfl⟩)
  · next hr => exact .inl ⟨by simpa using hr, by cases h; rfl⟩

/-- The fetch of a running state in range, as the step's own fetch. -/
theorem fetch_of_fetches {s : State} {w : Window} (h : Fetches s w) : s.fetch = .ok w :=
  fetch_eq_ok.2 ⟨h.low, h.high, h.ir, h.a, h.b⟩

end Sys2Proof.Machine
end

