-- ==== Sys2Proof/Laws/PerInstr.lean ====
section
/-! SUPPORT. One lemma per instruction about its syntax: the register fields that R44 checks are the first operand bytes of
its encoding, A before B (spec/30_encoding.md R43), and no format has more than two. -/

namespace Sys2Proof

/-- The register fields are, in order, the first operand bytes of the instruction's window. -/
def Laws.RegFieldsEncoded.Statement (i : Instr) : Prop :=
  ∀ (c : Config) (m : OpcodeMap), i.regFields c <+: [(encode m i).a, (encode m i).b]

theorem Laws.RegFieldsEncoded.hlt : Laws.RegFieldsEncoded.Statement .hlt := fun _ _ => List.nil_prefix

theorem Laws.RegFieldsEncoded.ret (ra : Byte) : Laws.RegFieldsEncoded.Statement (.ret ra) := by
  intro c m
  show (if c.retFromStack then [] else [ra]) <+: [ra, 0]
  split
  · exact List.nil_prefix
  · exact ⟨[0], rfl⟩

theorem Laws.RegFieldsEncoded.push (ra : Byte) : Laws.RegFieldsEncoded.Statement (.push ra) := fun _ _ => ⟨[0], rfl⟩

theorem Laws.RegFieldsEncoded.pop (ra : Byte) : Laws.RegFieldsEncoded.Statement (.pop ra) := fun _ _ => ⟨[0], rfl⟩

theorem Laws.RegFieldsEncoded.prn (ra : Byte) : Laws.RegFieldsEncoded.Statement (.prn ra) := fun _ _ => ⟨[0], rfl⟩

theorem Laws.RegFieldsEncoded.call (ra : Byte) : Laws.RegFieldsEncoded.Statement (.call ra) := fun _ _ => ⟨[0], rfl⟩

theorem Laws.RegFieldsEncoded.jmp (ra : Byte) : Laws.RegFieldsEncoded.Statement (.jmp ra) := fun _ _ => ⟨[0], rfl⟩

theorem Laws.RegFieldsEncoded.jeq (ra : Byte) : Laws.RegFieldsEncoded.Statement (.jeq ra) := fun _ _ => ⟨[0], rfl⟩

theorem Laws.RegFieldsEncoded.jne (ra : Byte) : Laws.RegFieldsEncoded.Statement (.jne ra) := fun _ _ => ⟨[0], rfl⟩

theorem Laws.RegFieldsEncoded.inc (ra : Byte) : Laws.RegFieldsEncoded.Statement (.inc ra) := fun _ _ => ⟨[0], rfl⟩

theorem Laws.RegFieldsEncoded.dec (ra : Byte) : Laws.RegFieldsEncoded.Statement (.dec ra) := fun _ _ => ⟨[0], rfl⟩

theorem Laws.RegFieldsEncoded.not (ra : Byte) : Laws.RegFieldsEncoded.Statement (.not ra) := fun _ _ => ⟨[0], rfl⟩

theorem Laws.RegFieldsEncoded.ldi (ra imm : Byte) : Laws.RegFieldsEncoded.Statement (.ldi ra imm) := fun _ _ => ⟨[imm], rfl⟩

theorem Laws.RegFieldsEncoded.add (ra rb : Byte) : Laws.RegFieldsEncoded.Statement (.add ra rb) := fun _ _ => ⟨[], rfl⟩

theorem Laws.RegFieldsEncoded.sub (ra rb : Byte) : Laws.RegFieldsEncoded.Statement (.sub ra rb) := fun _ _ => ⟨[], rfl⟩

theorem Laws.RegFieldsEncoded.mul (ra rb : Byte) : Laws.RegFieldsEncoded.Statement (.mul ra rb) := fun _ _ => ⟨[], rfl⟩

theorem Laws.RegFieldsEncoded.div (ra rb : Byte) : Laws.RegFieldsEncoded.Statement (.div ra rb) := fun _ _ => ⟨[], rfl⟩

theorem Laws.RegFieldsEncoded.mod (ra rb : Byte) : Laws.RegFieldsEncoded.Statement (.mod ra rb) := fun _ _ => ⟨[], rfl⟩

theorem Laws.RegFieldsEncoded.cmp (ra rb : Byte) : Laws.RegFieldsEncoded.Statement (.cmp ra rb) := fun _ _ => ⟨[], rfl⟩

theorem Laws.RegFieldsEncoded.and (ra rb : Byte) : Laws.RegFieldsEncoded.Statement (.and ra rb) := fun _ _ => ⟨[], rfl⟩

theorem Laws.RegFieldsEncoded.or (ra rb : Byte) : Laws.RegFieldsEncoded.Statement (.or ra rb) := fun _ _ => ⟨[], rfl⟩

theorem Laws.RegFieldsEncoded.xor (ra rb : Byte) : Laws.RegFieldsEncoded.Statement (.xor ra rb) := fun _ _ => ⟨[], rfl⟩

theorem Laws.RegFieldsEncoded.shl (ra rb : Byte) : Laws.RegFieldsEncoded.Statement (.shl ra rb) := fun _ _ => ⟨[], rfl⟩

theorem Laws.RegFieldsEncoded.shr (ra rb : Byte) : Laws.RegFieldsEncoded.Statement (.shr ra rb) := fun _ _ => ⟨[], rfl⟩

theorem Laws.RegFieldsEncoded.illegal (ir : Byte) : Laws.RegFieldsEncoded.Statement (.illegal ir) := fun _ _ => List.nil_prefix

end Sys2Proof
end

