-- ==== Sys2Proof/Tests/Slice0.lean ====
section
/-! SUPPORT. Tests. The expected results are the spec's: the words of spec/30_encoding.md R47, the vectors of
spec/95_test_vectors.md (named in each comment) and the examples of the rules. The witnesses at the end meet the hypotheses
of the statements. -/

namespace Sys2Proof.Tests

open Sys2Proof.Machine

/-! ## Helpers -/

/-- The next state an outcome answers. -/
def nextOf : Host.Outcome State Fault Refusal → Option State
  | .next t => some t
  | .fault _ => none
  | .refused _ => none

/-- The reset state with `ROUTE_ALL_ALU`. -/
def routed : State := State.reset.withRouting true

/-- The reset state with `RET_FROM_STACK`. -/
def stackRet : State := State.resetWith { Config.default with retFromStack := true }

/-- The reset state with two register values. -/
def withXs (s : State) (x0 x1 : Int) : State := (s.setX 0 x0).setX 1 x1

/-- A state with bytes at its pc. -/
def withBytes (s : State) (bytes : List Byte) : State := s.setMem (s.mem.writeBytes s.pc.toNat bytes)

/-- One step of a state with bytes at its pc. -/
def stepOn (s : State) (bytes : List Byte) : Option State := nextOf (step (withBytes s bytes))

/-- What a step left: a register, the pc, the fault. -/
def seen (i : Fin 8) (t : Option State) : Option (Int × Int × Option FaultCause) :=
  t.map fun t => (t.x i, t.pc, t.fault.map (·.cause))

/-! ## Decoding: each row's word written out from R47 -/

theorem test_decode_halt_and_stack :
    decodeTableWord 24 0b00000001 = some .hlt ∧
    decodeTableWord 24 0b00000011_00010001 = some (.ret 3) ∧
    decodeTableWord 24 0b00000010_01000101 = some (.push 2) ∧
    decodeTableWord 24 0b00000111_01000110 = some (.pop 7) ∧
    decodeTableWord 24 0b00000001_01000111 = some (.prn 1) := by decide

theorem test_decode_control :
    decodeTableWord 24 0b00000010_01010000 = some (.call 2) ∧
    decodeTableWord 24 0b00000011_01010100 = some (.jmp 3) ∧
    decodeTableWord 24 0b00000100_01010101 = some (.jeq 4) ∧
    decodeTableWord 24 0b00001000_01010110 = some (.jne 8) ∧
    decodeTableWord 24 0b00000101_00000110_10100111 = some (.cmp 6 5) := by decide

theorem test_decode_unary_and_immediate :
    decodeTableWord 24 0b10011001_00000010_01100101 = some (.inc 2) ∧
    decodeTableWord 24 0b10011001_00000011_01100110 = some (.dec 3) ∧
    decodeTableWord 24 0b10011001_00000100_01101001 = some (.not 4) ∧
    decodeTableWord 24 0b11111111_00000011_10000010 = some (.ldi 3 255) := by decide

theorem test_decode_arithmetic :
    decodeTableWord 24 0b00000001_00000000_10100000 = some (.add 0 1) ∧
    decodeTableWord 24 0b00000010_00000001_10100001 = some (.sub 1 2) ∧
    decodeTableWord 24 0b00000011_00000010_10100010 = some (.mul 2 3) ∧
    decodeTableWord 24 0b00000100_00000011_10100011 = some (.div 3 4) ∧
    decodeTableWord 24 0b00000101_00000100_10100100 = some (.mod 4 5) := by decide

theorem test_decode_bitwise :
    decodeTableWord 24 0b00000110_00000101_10101000 = some (.and 5 6) ∧
    decodeTableWord 24 0b00000111_00000110_10101010 = some (.or 6 7) ∧
    decodeTableWord 24 0b00000000_00000111_10101011 = some (.xor 7 0) ∧
    decodeTableWord 24 0b00000010_00000000_10101100 = some (.shl 0 2) ∧
    decodeTableWord 24 0b00000011_00000001_10101101 = some (.shr 1 3) := by decide

/-- LS-8's NOP, IRET, LD and INT are illegal here (R50), and a word shorter than the window has zero operand bytes. -/
theorem test_decode_illegal :
    decodeTableWord 8 0x00 = some (.illegal 0x00) ∧ decodeTableWord 24 0x13 = some (.illegal 0x13) ∧
    decodeTableWord 24 0x000083 = some (.illegal 0x83) ∧ decodeTableWord 24 0x52 = some (.illegal 0x52) ∧
    decodeTableWord 8 0xFFFFA0 = some (.add 0 0) := by decide

theorem test_decode_bytes :
    (decodeBytes OpcodeMap.ls8 [0x82, 0, 5, 1]).toOption = some (.ldi 0 5, [1]) ∧
    (decodeBytes OpcodeMap.ls8 [0x82, 0]).toOption = none := by decide

theorem test_encode : encode OpcodeMap.ls8 (.ldi 7 9) = ⟨0x82, 7, 9⟩ ∧ encode OpcodeMap.ls8 .hlt = ⟨1, 0, 0⟩ := by decide

/-! ## WellFormed: an ill-formed term for each check -/

theorem test_wellFormed_refuses_first_field : (Instr.push 8).wellFormed Config.default = false := by decide

theorem test_wellFormed_refuses_second_field : (Instr.add 0 8).wellFormed Config.default = false := by decide

theorem test_wellFormed_refuses_unrouted : (Instr.sub 0 1).wellFormed Config.default = false := by decide

theorem test_wellFormed_refuses_mapped_illegal : (Instr.illegal 0xA0).wellFormed Config.default = false := by decide

theorem test_wellFormed_accepts :
    (Instr.add 0 7).wellFormed Config.default = true ∧ (Instr.illegal 0x13).wellFormed Config.default = true ∧
    (Instr.sub 0 1).wellFormed routed.cfg = true ∧ (Instr.ret 9).wellFormed stackRet.cfg = true ∧
    (Instr.ret 9).wellFormed Config.default = false := by decide

/-! ## Fetch, decode, load -/

/-- VE1, VE4: an illegal byte, and decode before the register check. -/
theorem test_illegal :
    seen 0 (stepOn State.reset [0x00]) = some (0, 0, some (.illegalInstruction 0x00)) ∧
    seen 0 (stepOn State.reset [0xA1, 8, 9]) = some (0, 0, some (.illegalInstruction 0xA1)) := by decide

/-- VE7, VE8, VE10: the fetch faults before decode, with the first address out of range. -/
theorem test_fetch_fault :
    seen 0 (stepOn (State.reset.setPc 255) [0x47]) = some (0, 255, some (memoryFault 256)) ∧
    seen 0 (nextOf (step (State.reset.setPc 254))) = some (0, 254, some (memoryFault 256)) ∧
    seen 0 (nextOf (step (State.reset.setPc (-1)))) = some (0, -1, some (memoryFault (-1))) := by decide

/-- VE11: an oversized image is not loaded. -/
theorem test_load_oversized (image : List Byte) (h : image.length = 257) :
    (State.reset.load image).fault = some ⟨.outOfRangeAccess (.load 257), 0⟩ ∧ (State.reset.load image).mem = [] ∧
    (State.reset.load image).running = false := by
  have hn : ¬ image.length ≤ memSize := by rw [h]; decide
  rw [State.load, if_neg hn, h]
  exact ⟨rfl, rfl, rfl⟩

/-- R103: byte i of the image stands at M[i]. -/
theorem test_load : (State.reset.load [0x82, 0, 5]).readByte 0 = 0x82 ∧ (State.reset.load [0x82, 0, 5]).readByte 2 = 5 := by
  decide

/-- A memory write of 0 removes its cell, and cells stay in address order. -/
theorem test_memory_canonical :
    (Memory.write (Memory.write [] 9 1) 3 2) = [(3, 2), (9, 1)] ∧
    (Memory.write [(3, 2), (9, 1)] 3 0) = [(9, 1)] := by decide

/-- The example of R71, stored where the first step after reset fetches. -/
theorem test_withFetchWord : seen 0 (nextOf (step (State.reset.withFetchWord 24 0x050082))) = some (5, 3, none) := by decide

/-! ## Load immediate, output and stack -/

/-- VT2, VT3. -/
theorem test_ldi :
    seen 3 (stepOn State.reset [0x82, 3, 0xFF]) = some (255, 3, none) ∧
    seen 0 (stepOn State.reset [0x82, 8, 1]) = some (0, 0, some (registerFault 8)) := by decide

/-- VT5. -/
theorem test_prn : (stepOn (withXs State.reset (-6) 0) [0x47, 0]).map (fun t => (t.out, t.pc)) = some ([-6], 2) := by decide

/-- VT8: PUSH r7 stores the decremented stack pointer. -/
theorem test_push_r7 :
    (stepOn State.reset [0x45, 7]).map (fun t => (t.x 7, t.readByte 0xF3, t.pc)) = some (0xF3, 0xF3, 2) := by decide

/-- VT9, VT11: the stack pointer is not decremented. -/
theorem test_push_faults :
    seen 7 (stepOn (withXs State.reset 300 0) [0x45, 0]) = some (0xF4, 0, some (.valueOutOfDomain (.store 300))) ∧
    seen 7 (stepOn (State.reset.setX 7 0) [0x45, 0]) = some (0, 0, some (memoryFault (-1))) := by decide

/-- VT13: POP r7 leaves the popped byte plus 1. -/
theorem test_pop_r7 :
    seen 7 (stepOn ((State.reset.setX 7 0xF3).setMem [(0xF3, 0x20)]) [0x46, 7]) = some (0x21, 2, none) := by decide

/-- VT16, VT15. -/
theorem test_pop_edges :
    seen 7 (stepOn ((State.reset.setX 7 255).setMem [(255, 9)]) [0x46, 0]) = some (256, 2, none) ∧
    seen 7 (stepOn (State.reset.setX 7 256) [0x46, 0]) = some (256, 0, some (memoryFault 256)) := by decide

/-! ## ALU -/

/-- VA2, VA5: no wrap, and A is checked before B. -/
theorem test_add :
    seen 0 (stepOn (withXs State.reset 255 1) [0xA0, 0, 1]) = some (256, 3, none) ∧
    seen 0 (stepOn State.reset [0xA0, 8, 9]) = some (0, 0, some (registerFault 8)) := by decide

/-- VA43, VA38. -/
theorem test_sub :
    seen 0 (stepOn (withXs routed 3 5) [0xA1, 0, 1]) = some (-2, 3, none) ∧
    seen 0 (stepOn (withXs State.reset 3 5) [0xA1, 0, 1]) = some (3, 0, some (.illegalInstruction 0xA1)) := by decide

/-- VA7, VA9. -/
theorem test_mul :
    seen 0 (stepOn (withXs State.reset 200 200) [0xA2, 0, 1]) = some (40000, 3, none) ∧
    seen 0 (stepOn (withXs State.reset (-3) 0) [0xA2, 0, 1]) = some (0, 3, none) := by decide

/-- VA46, VA47, VA48. -/
theorem test_div :
    seen 0 (stepOn (withXs routed (-6) 3) [0xA3, 0, 1]) = some (-2, 3, none) ∧
    seen 0 (stepOn (withXs routed 7 2) [0xA3, 0, 1]) = some (7, 0, some (.valueOutOfDomain (.div 7 2))) ∧
    seen 0 (stepOn (withXs routed 5 0) [0xA3, 0, 1]) = some (5, 0, some (.divideByZero .div)) := by decide

/-- VA11, VA12, VA13, VA15. -/
theorem test_mod :
    seen 0 (stepOn (withXs State.reset (-7) 3) [0xA4, 0, 1]) = some (2, 3, none) ∧
    seen 0 (stepOn (withXs State.reset 7 (-3)) [0xA4, 0, 1]) = some (-2, 3, none) ∧
    seen 0 (stepOn (withXs State.reset (-7) (-3)) [0xA4, 0, 1]) = some (-1, 3, none) ∧
    seen 0 (stepOn (withXs State.reset 5 0) [0xA4, 0, 1]) = some (5, 0, some (.divideByZero .mod)) := by decide

/-- VA51, VA53, VA40: B is not checked. -/
theorem test_inc_dec :
    seen 2 (stepOn (routed.setX 2 255) [0x65, 2, 0x99]) = some (256, 3, none) ∧
    seen 2 (stepOn routed [0x66, 2, 0x99]) = some (-1, 3, none) ∧
    seen 2 (stepOn State.reset [0x65, 2, 0]) = some (0, 0, some (.illegalInstruction 0x65)) := by decide

/-- VA19, VA20, VA21. -/
theorem test_and :
    seen 0 (stepOn (withXs State.reset 12 10) [0xA8, 0, 1]) = some (8, 3, none) ∧
    seen 0 (stepOn (withXs State.reset (-1) 5) [0xA8, 0, 1]) = some (5, 3, none) ∧
    seen 0 (stepOn (withXs State.reset (-6) 255) [0xA8, 0, 1]) = some (250, 3, none) := by decide

/-- VA22, VA23. -/
theorem test_or :
    seen 0 (stepOn (withXs State.reset 12 10) [0xAA, 0, 1]) = some (14, 3, none) ∧
    seen 0 (stepOn (withXs State.reset 5 (-1)) [0xAA, 0, 1]) = some (-1, 3, none) := by decide

/-- VA24, VA26. -/
theorem test_xor :
    seen 0 (stepOn (withXs State.reset 12 10) [0xAB, 0, 1]) = some (6, 3, none) ∧
    seen 0 (stepOn (withXs State.reset 5 (-1)) [0xAB, 0, 1]) = some (-6, 3, none) := by decide

/-- VA27, VA29. -/
theorem test_not :
    seen 0 (stepOn (withXs State.reset 5 0) [0x69, 0, 0x99]) = some (-6, 3, none) ∧
    seen 0 (stepOn (withXs State.reset 255 0) [0x69, 0, 0]) = some (-256, 3, none) := by decide

/-- VA37, VA36. -/
theorem test_shl :
    seen 0 (stepOn (withXs State.reset 2 0) [0xAC, 0, 0]) = some (8, 3, none) ∧
    seen 0 (stepOn (withXs State.reset 3 (-1)) [0xAC, 0, 1]) = some (3, 0, some (.valueOutOfDomain (.shift (-1)))) := by
  decide

/-- VA55, VA57, VA58. -/
theorem test_shr :
    seen 0 (stepOn (withXs routed (-5) 1) [0xAD, 0, 1]) = some (-3, 3, none) ∧
    seen 0 (stepOn (withXs routed 1 8) [0xAD, 0, 1]) = some (0, 3, none) ∧
    seen 0 (stepOn (withXs routed 4 (-2)) [0xAD, 0, 1]) = some (4, 0, some (.valueOutOfDomain (.shift (-2)))) := by decide

/-! ## Control -/

/-- VC1, VC2: CALL r7 jumps to the decremented stack pointer. -/
theorem test_call :
    (stepOn ((State.reset.setPc 6).setX 2 0x10) [0x50, 2]).map
      (fun t => (t.latch, t.x 7, t.readByte 0xF3, t.pc)) = some (some 8, 0xF3, 8, 0x10) ∧
    (stepOn (State.reset.setPc 6) [0x50, 7]).map (fun t => (t.latch, t.pc)) = some (some 8, 0xF3) := by decide

/-- VC3: no write of a faulting CALL is left. -/
theorem test_call_faults :
    (stepOn (((State.reset.setPc 6).setX 2 0x10).setX 7 0) [0x50, 2]).map
      (fun t => (t.latch, t.x 7, t.fault.map (·.cause))) = some (none, 0, some (memoryFault (-1))) := by decide

/-- VC9, VC8, VC6: the latch wins over the popped byte; an empty latch faults with nothing popped. -/
theorem test_ret :
    (stepOn ((((State.reset.setPc 16).setX 7 0xF3).setMem [(0xF3, 0x30)]).setLatch 8) [0x11, 3]).map
      (fun t => (t.x 3, t.x 7, t.pc)) = some (0x30, 0xF4, 8) ∧
    (stepOn ((((State.reset.setPc 16).setX 7 0xF3).setMem [(0xF3, 8)]).setLatch 8) [0x11, 7]).map
      (fun t => (t.x 7, t.pc)) = some (9, 8) ∧
    seen 7 (stepOn (State.reset.setPc 16) [0x11, 3]) = some (0xF4, 16, some .emptyReturnLatch) := by decide

/-- VC11: with `RET_FROM_STACK` the operand byte is ignored. -/
theorem test_ret_from_stack :
    seen 7 (stepOn ((((stackRet.setPc 16).setX 7 0xF3).setMem [(0xF3, 0x30)]).setLatch 8) [0x11, 9]) =
      some (0xF4, 0x30, none) := by decide

/-- VC13. -/
theorem test_jmp : seen 3 (stepOn (State.reset.setX 3 0x20) [0x54, 3]) = some (0x20, 0x20, none) := by decide

/-- VC20, VC21, VC22. -/
theorem test_cmp :
    (stepOn (withXs State.reset (-1) 0) [0xA7, 0, 1]).map (fun t => (t.fl, t.pc)) = some (0b100, 3) ∧
    (stepOn (withXs State.reset 256 255) [0xA7, 0, 1]).map (fun t => (t.fl, t.pc)) = some (0b010, 3) ∧
    (stepOn ((State.reset.setX 3 (-9)).setFl 0b100) [0xA7, 3, 3]).map (fun t => t.fl) = some 0b001 := by decide

/-- VJ3, VJ9, VC24. -/
theorem test_jeq :
    (stepOn (((State.reset.setPc 0x20).setX 2 0x30).setFl 0b001) [0x55, 2]).map (·.pc) = some 0x30 ∧
    (stepOn (((State.reset.setPc 0x20).setX 2 0x30).setFl 0b011) [0x55, 2]).map (·.pc) = some 0x22 ∧
    seen 2 (stepOn ((State.reset.setPc 0x20).setFl 0b010) [0x55, 8]) = some (0, 0x20, some (registerFault 8)) := by decide

/-- VJ4, VJ10. -/
theorem test_jne :
    (stepOn (((State.reset.setPc 0x20).setX 2 0x30).setFl 0b001) [0x56, 2]).map (·.pc) = some 0x22 ∧
    (stepOn (((State.reset.setPc 0x20).setX 2 0x30).setFl 0b011) [0x56, 2]).map (·.pc) = some 0x30 := by decide

/-- VC27, VC28: the window of HLT at 253 is in range, at 254 it is not. -/
theorem test_hlt :
    (stepOn (State.reset.setPc 253) [1]).map (fun t => (t.running, t.pc, t.fault)) = some (false, 254, none) ∧
    seen 0 (stepOn (State.reset.setPc 254) [1]) = some (0, 254, some (memoryFault 256)) := by decide

/-- VC30: the step of a halted CORE does nothing. -/
theorem test_stopped : nextOf (step (State.reset.halt.setPc 1)) = some (State.reset.halt.setPc 1) := by decide

/-! ## Witnesses: states and operands that meet the hypotheses of each statement, one for each clause -/

theorem witness_DecodeOfEncodeIsTheInstruction :
    OpcodeMap.ls8.injective ∧ (Instr.add 0 255).encodable OpcodeMap.ls8 = true ∧
    (Instr.illegal 0x13).encodable OpcodeMap.ls8 = true := by decide

/-- A running state that fetches ADD r0, r7 at the last address a fetch reads from. -/
def fetching : State := withBytes (State.reset.setPc 253) [0xA0, 0, 7]

theorem fetching_fetches : Fetches fetching ⟨0xA0, 0, 7⟩ :=
  ⟨by decide, by decide, by decide, by decide, by decide, by decide⟩

theorem witness_StepRunsTheDecodedInstruction : ∃ s w, Fetches s w := ⟨_, _, fetching_fetches⟩

theorem witness_FetchOutOfRangeFaults :
    ((State.reset.setPc (-1)).running = true ∧ (State.reset.setPc (-1)).pc < 0) ∧
    ((State.reset.setPc 256).running = true ∧ 255 < (State.reset.setPc 256).pc) ∧
    ((State.reset.setPc 254).running = true ∧ (State.reset.setPc 254).pc = 254) ∧
    ((State.reset.setPc 255).running = true ∧ (State.reset.setPc 255).pc = 255) := by decide

/-- Empty memory: the byte 0x00 is no mnemonic's. -/
theorem reset_fetches : Fetches State.reset ⟨0, 0, 0⟩ :=
  ⟨by decide, by decide, by decide, by decide, by decide, by decide⟩

theorem witness_UndecodableByteRaisesIllegalInstruction :
    Fetches State.reset ⟨0, 0, 0⟩ ∧
    ∀ op, State.reset.cfg.decodable op = true → State.reset.cfg.opcodeMap.byteOf op ≠ 0 :=
  ⟨reset_fetches, by intro op; cases op <;> decide⟩

/-- An unrouted opcode, SUB, in the default configuration. -/
theorem witness_UndecodableByteRaisesIllegalInstruction_unrouted :
    ∃ s : State, Fetches s ⟨0xA1, 8, 9⟩ ∧ ∀ op, s.cfg.decodable op = true → s.cfg.opcodeMap.byteOf op ≠ 0xA1 :=
  ⟨withBytes State.reset [0xA1, 8, 9], ⟨by decide, by decide, by decide, by decide, by decide, by decide⟩,
    by intro op; cases op <;> decide⟩

theorem witness_StoppedCoreNeverChanges : State.reset.halt.running = false := by decide

/-- The first step of empty memory enters a fault. -/
theorem reset_step : step State.reset = .next (State.reset.raise (.illegalInstruction 0)) := rfl

theorem witness_FaultsArePrecise :
    ∃ s t r, s.fault = none ∧ step s = .next t ∧ t.fault = some r := ⟨_, _, _, rfl, reset_step, rfl⟩

theorem witness_UnsupportedOperationIsNeverRaised :
    ∃ s t r, s.fault = none ∧ step s = .next t ∧ t.fault = some r := ⟨_, _, _, rfl, reset_step, rfl⟩

/-- Both sides of the equivalence: a step that halts, and one that does not. -/
theorem witness_HaltedIsReachedOnlyByHlt :
    (∃ s t, s.running = true ∧ s.fault = none ∧ step s = .next t ∧ t.running = false ∧ t.fault = none) ∧
    (∃ s t, s.running = true ∧ s.fault = none ∧ step s = .next t ∧ t.running = true) :=
  ⟨⟨withBytes State.reset [1], _, rfl, rfl, rfl, rfl, rfl⟩, ⟨fetching, _, rfl, rfl, rfl, rfl⟩⟩

theorem witness_FirstBadRegisterFieldFaults :
    (Instr.add 8 9).decodable Config.default = true ∧
    ((Instr.add 8 9).regFields Config.default).find? (fun b => decide (¬ isRegIndex b)) = some 8 ∧
    ((Instr.add 7 9).regFields Config.default).find? (fun b => decide (¬ isRegIndex b)) = some 9 ∧
    (Instr.ret 8).decodable Config.default = true ∧
    ((Instr.ret 8).regFields Config.default).find? (fun b => decide (¬ isRegIndex b)) = some 8 := by decide

theorem witness_StepKeepsTheInvariant : ∃ s t, State.Inv s ∧ step s = .next t := by
  refine ⟨_, _, ⟨Memory.wf_nil, OpcodeMap.ls8_injective, List.mem_cons_self, ?_, ?_⟩, reset_step⟩
  · intro v h
    cases h
  · intro r h
    cases h

/-- An image that fills memory, and one a byte too long. -/
theorem witness_LoadPlacesTheImage : (∃ image : List Byte, image.length = 256) ∧ ∃ image : List Byte, 256 < image.length :=
  ⟨⟨List.replicate 256 1, List.length_replicate⟩, ⟨List.replicate 257 1, by rw [List.length_replicate]; omega⟩⟩

theorem witness_LoadMeetsTheInvariant : Config.default.opcodeMap.injective := by decide

theorem witness_SafeRunIsEveryStepSafe : State.reset.fault = none := rfl

theorem witness_MemReadChecksTheAddress :
    ((-1 : Int) < 0) ∧ ((255 : Int) < 256) ∧ (0 ≤ (0 : Int) ∧ (0 : Int) ≤ 255) ∧ (0 ≤ (255 : Int) ∧ (255 : Int) ≤ 255) := by
  decide

theorem witness_StoredByteIsReadBack :
    ((0 : Int) ≤ 255 ∧ (255 : Int) ≤ 255 ∧ (255 : Int) < 256) ∧ (0 : Int) ≤ 0 ∧ (-1 : Int) < 0 ∧ State.reset.mem.wf ∧
    (0 : Int) ≠ 255 := by decide

theorem witness_RegisterWriteIsReadBack : (1 : Fin 8) ≠ 7 := by decide

/-- The boundary of the register fields (ADD, MUL, LDI, PRN, CMP, JMP, JEQ and JNE, each clause), and an injective map. -/
theorem witness_AddWritesTheSum :
    OpcodeMap.ls8.injective ∧ isRegIndex 0 ∧ isRegIndex 7 ∧ ¬ isRegIndex 8 ∧ ¬ isRegIndex 255 := by decide

theorem witness_MulWritesTheProduct : OpcodeMap.ls8.injective ∧ isRegIndex 7 ∧ ¬ isRegIndex 8 := by decide

theorem witness_RoutedSubIncDecResults : isRegIndex 7 ∧ routed.cfg.routeAllAlu = true := by decide

theorem witness_RoutedDivIsExactOrFaults :
    routed.cfg.routeAllAlu = true ∧ (withXs routed 5 0).x (regOf 1 (by decide)) = 0 ∧
    ((-6 : Int) = 3 * -2 ∧ (3 : Int) ≠ 0) ∧ ∀ q : Int, (7 : Int) ≠ 2 * q :=
  ⟨by decide, by decide, by decide, by omega⟩

theorem witness_ModWritesTheFloorRemainder :
    (withXs State.reset 5 0).x (regOf 1 (by decide)) = 0 ∧ (withXs State.reset 7 (-3)).x (regOf 1 (by decide)) < 0 ∧
    0 < (withXs State.reset 7 3).x (regOf 1 (by decide)) := by decide

theorem witness_BitwiseInstructionResults : isRegIndex 0 ∧ isRegIndex 7 := by decide

theorem witness_ShiftResults :
    routed.cfg.routeAllAlu = true ∧ 0 ≤ (withXs routed 3 0).x (regOf 1 (by decide)) ∧
    (withXs routed 3 (-1)).x (regOf 1 (by decide)) < 0 := by decide

theorem witness_UnroutedOperationsAreIllegal : State.reset.cfg.routeAllAlu = false := by decide

/-- A completed and a faulting ALU instruction. -/
theorem witness_AluInstructionsWriteOnlyTheirDestination :
    (∃ t, aluDestination? (.add 0 1) = some 0 ∧ exec (.add 0 1) State.reset = .next t ∧ t.fault = none) ∧
    (∃ t, aluDestination? (.mod 0 1) = some 0 ∧ exec (.mod 0 1) State.reset = .next t ∧ t.running = false) :=
  ⟨⟨_, rfl, rfl, rfl⟩, ⟨_, rfl, rfl, rfl⟩⟩

theorem witness_LdiWritesTheImmediate : OpcodeMap.ls8.injective ∧ isRegIndex 7 ∧ ¬ isRegIndex 8 := by decide

theorem witness_PrnEmitsTheRegister : OpcodeMap.ls8.injective ∧ isRegIndex 7 ∧ ¬ isRegIndex 8 := by decide

/-- A push to the lowest and the highest cell, one below memory, one above it, and a value that is no byte. -/
theorem witness_PushStoresAtTheDecrementedPointer :
    inMemory (State.reset.setX 7 1).pushAddress ∧ inMemory (State.reset.setX 7 256).pushAddress ∧
    ¬ inMemory (State.reset.setX 7 0).pushAddress ∧ ¬ inMemory (State.reset.setX 7 257).pushAddress ∧
    State.reset.mem.wf ∧ isByteValue ((State.reset.setX 0 255).x 0) ∧ ¬ isByteValue ((State.reset.setX 0 256).x 0) := by
  decide

theorem witness_PopReadsThenIncrements :
    inMemory ((State.reset.setX 7 255).x 7) ∧ regOf 6 (by decide) ≠ 7 ∧ regOf 7 (by decide) = 7 ∧
    ¬ inMemory ((State.reset.setX 7 256).x 7) := by decide

/-- Both operands: r0 holding a byte, and r7 itself. -/
theorem witness_PushThenPopRestoresEveryRegister :
    State.reset.mem.wf ∧ inMemory State.reset.pushAddress ∧ isByteValue (State.reset.x 0) ∧
    isByteValue (State.reset.x 7 - 1) := by decide

/-- The pushed byte as the opcode byte, as operand A and as operand B of the next window. -/
theorem witness_NextFetchSeesThePushedByte :
    (∃ t w, exec (.push 0) (State.reset.setX 7 3) = .next t ∧ Fetches t w ∧ t.pc = (State.reset.setX 7 3).pushAddress) ∧
    (∃ t w, exec (.push 0) (State.reset.setX 7 4) = .next t ∧ Fetches t w ∧
      t.pc + 1 = (State.reset.setX 7 4).pushAddress) ∧
    (∃ t w, exec (.push 0) (State.reset.setX 7 5) = .next t ∧ Fetches t w ∧
      t.pc + 2 = (State.reset.setX 7 5).pushAddress) :=
  ⟨⟨_, ⟨0, 0, 0⟩, rfl, ⟨rfl, by decide, by decide, rfl, rfl, rfl⟩, by decide⟩,
    ⟨_, ⟨0, 0, 0⟩, rfl, ⟨rfl, by decide, by decide, rfl, rfl, rfl⟩, by decide⟩,
    ⟨_, ⟨0, 0, 0⟩, rfl, ⟨rfl, by decide, by decide, rfl, rfl, rfl⟩, by decide⟩⟩

theorem witness_CallSavesTheReturnAddressTwice :
    (0 ≤ (State.reset.setPc 253).pc ∧ (State.reset.setPc 253).pc ≤ 253) ∧ inMemory (State.reset.setPc 253).pushAddress ∧
    State.reset.mem.wf ∧ ¬ inMemory (State.reset.setX 7 0).pushAddress := by decide

theorem witness_RetTakesThePcFromTheLatch :
    State.reset.cfg.retFromStack = false ∧ inMemory (State.reset.x 7) ∧ (State.reset.setLatch 8).latch = some 8 ∧
    regOf 3 (by decide) ≠ 7 ∧ regOf 7 (by decide) = 7 ∧ ¬ inMemory ((State.reset.setX 7 256).x 7) ∧
    State.reset.latch = none := by decide

theorem witness_RetFromStackPopsThePc :
    stackRet.cfg.retFromStack = true ∧ inMemory (stackRet.x 7) ∧ ¬ inMemory ((stackRet.setX 7 (-1)).x 7) := by decide

theorem witness_CallThenRetReturns :
    isRegIndex 1 ∧ isRegIndex 2 ∧ State.reset.mem.wf ∧ (0 ≤ State.reset.pc ∧ State.reset.pc ≤ 253) ∧
    inMemory State.reset.pushAddress ∧ State.reset.cfg.retFromStack = false ∧ regOf 2 (by decide) ≠ 7 ∧
    stackRet.cfg.retFromStack = true := by decide

/-- A target below and above memory, at 254 and 255, and a JMP at 0 to its own address. -/
theorem witness_JmpLoadsThePcUnchecked :
    State.reset.running = true ∧ (State.reset.setX 3 (-1)).x (regOf 3 (by decide)) < 0 ∧
    255 < (State.reset.setX 3 256).x (regOf 3 (by decide)) ∧ (State.reset.setX 3 254).x (regOf 3 (by decide)) = 254 ∧
    (State.reset.setX 3 255).x (regOf 3 (by decide)) = 255 ∧ ¬ isRegIndex 8 := by decide

theorem witness_JmpLoadsThePcUnchecked_hang :
    ∃ s : State, Fetches s ⟨0x54, 3, 0⟩ ∧ decode s.cfg.opcodeMap ⟨0x54, 3, 0⟩ = .jmp 3 ∧
      s.x (regOf 3 (by decide)) = s.pc :=
  ⟨withBytes State.reset [0x54, 3, 0], ⟨by decide, by decide, by decide, by decide, by decide, by decide⟩, by decide,
    by decide⟩

theorem witness_CmpSetsExactlyOneFlag :
    isRegIndex 7 ∧ ¬ isRegIndex 8 ∧ (withXs State.reset 3 5).x 0 < (withXs State.reset 3 5).x 1 ∧
    (withXs State.reset 5 5).x 0 = (withXs State.reset 5 5).x 1 ∧
    (withXs State.reset 5 3).x 1 < (withXs State.reset 5 3).x 0 := by decide

theorem witness_ConditionalJumpsMatchFlExactly :
    (State.reset.setFl 0b001).fl = 0b001 ∧ (State.reset.setFl 0b011).fl ≠ 0b001 ∧ isRegIndex 7 ∧ ¬ isRegIndex 8 := by
  decide

theorem witness_RegistersChangeOnlyAsDestinations :
    ∃ t, exec (.pop 1) State.reset = .next t ∧ (6 : Fin 8).val ∉ writtenRegisters State.reset.cfg (.pop 1) :=
  ⟨_, rfl, by decide⟩

/-- A storing instruction, and one that is neither PUSH nor CALL. -/
theorem witness_MemoryChangesOnlyByPushAndCall :
    (∃ t, exec (.push 0) State.reset = .next t) ∧
    (∃ t, exec (.pop 0) State.reset = .next t ∧ ∀ ra, Instr.pop 0 ≠ .push ra ∧ Instr.pop 0 ≠ .call ra) :=
  ⟨⟨_, rfl⟩, ⟨_, rfl, by simp⟩⟩

theorem witness_FlagsChangeOnlyByCmp : ∃ t, exec (.cmp 0 1) State.reset = .next t ∧ t.fl ≠ State.reset.fl :=
  ⟨_, rfl, by decide⟩

theorem witness_LatchChangesOnlyByCall : ∃ t, exec (.call 0) State.reset = .next t ∧ t.latch ≠ State.reset.latch :=
  ⟨_, rfl, by decide⟩

theorem witness_OutputGrowsOnlyByPrn : ∃ t, exec (.prn 0) State.reset = .next t ∧ t.out ≠ State.reset.out :=
  ⟨_, rfl, by decide⟩

theorem witness_RunningAndFaultChangeOnlyByHltOrFault : ∃ t, exec .hlt State.reset = .next t := ⟨_, rfl⟩

theorem witness_FlagsInfluenceOnlyConditionalJumps :
    (∀ ra, Instr.add 0 1 ≠ .jeq ra ∧ Instr.add 0 1 ≠ .jne ra) ∧ ∀ ra rb, Instr.add 0 1 ≠ .cmp ra rb := by simp

theorem witness_LatchInfluencesOnlyRet : ∀ ra, Instr.push 0 ≠ .ret ra ∧ Instr.push 0 ≠ .call ra := by simp

theorem witness_RoutingInfluencesOnlyTheFive :
    ∀ op, (Instr.add 0 1).opcode? = some op → op.routedOnRequest = false := by
  intro op h
  cases h
  rfl

end Sys2Proof.Tests
end

section
/-! PROOF of O24. The model's operators are Mathlib's on ℤ, and the bit view of spec/00_scope.md R10 is Mathlib's `Int.testBit`
read as 0 or 1, so the bit laws are Mathlib's `Int.testBit` laws carried over. -/

namespace Sys2Proof.Machine

/-! ### The model's operators are Mathlib's -/

theorem natAndNot_eq_ldiff (m n : Nat) : natAndNot m n = Nat.ldiff m n := by
  apply Nat.eq_of_testBit_eq
  intro i
  simp only [natAndNot, Nat.testBit_xor, Nat.testBit_and, Nat.testBit_ldiff]
  cases m.testBit i <;> simp

theorem land_eq_intLand (u v : Int) : land u v = Int.land u v := by
  cases u <;> cases v <;> simp [land, Int.land, natAndNot_eq_ldiff]

theorem lor_eq_intLor (u v : Int) : lor u v = Int.lor u v := by
  cases u <;> cases v <;> simp [lor, Int.lor, natAndNot_eq_ldiff]

theorem lxor_eq_intXor (u v : Int) : lxor u v = Int.xor u v := by
  cases u <;> cases v <;> rfl

theorem lnot_eq_intLnot (u : Int) : lnot u = Int.lnot u := by
  cases u <;> simp only [lnot, Int.lnot, Int.ofNat_eq_natCast] <;> omega

/-! ### The bit view is `Int.testBit` -/

/-- The divisor of R10 is positive, so its floor division is Lean's `/` and `%`. -/
theorem bitOf_eq_ediv_emod (i : Nat) (v : Int) : bitOf i v = v / 2 ^ i % 2 := by
  rw [bitOf, Int.fdiv_eq_ediv_of_nonneg v (by positivity), Int.fmod_eq_emod_of_nonneg _ (by decide)]

theorem bitOf_natCast (i m : Nat) : bitOf i m = (m.testBit i).toNat := by
  rw [bitOf_eq_ediv_emod, Nat.toNat_testBit]
  norm_cast

/-- `-m - 1` has the bits of `m` inverted. -/
theorem bitOf_negSucc (i m : Nat) : bitOf i (Int.negSucc m) = 1 - bitOf i m := by
  have floor : Int.negSucc m / 2 ^ i = -((m : Int) / 2 ^ i + 1) := Int.negSucc_ediv m (by positivity)
  rw [bitOf_eq_ediv_emod, bitOf_eq_ediv_emod, floor]
  omega

theorem bitOf_eq_testBit (i : Nat) (v : Int) : bitOf i v = (v.testBit i).toNat := by
  cases v with
  | ofNat m => exact bitOf_natCast i m
  | negSucc m =>
    rw [bitOf_negSucc, bitOf_natCast, Int.testBit]
    cases m.testBit i <;> rfl

/-! ### The bits of each operator's result -/

theorem bitOf_land (i : Nat) (u v : Int) : bitOf i (land u v) = bitOf i u * bitOf i v := by
  simp only [land_eq_intLand, bitOf_eq_testBit, Int.testBit_land]
  cases u.testBit i <;> cases v.testBit i <;> rfl

theorem bitOf_lor (i : Nat) (u v : Int) :
    bitOf i (lor u v) = bitOf i u + bitOf i v - bitOf i u * bitOf i v := by
  simp only [lor_eq_intLor, bitOf_eq_testBit, Int.testBit_lor]
  cases u.testBit i <;> cases v.testBit i <;> rfl

theorem bitOf_lxor (i : Nat) (u v : Int) : bitOf i (lxor u v) = (bitOf i u + bitOf i v) % 2 := by
  simp only [lxor_eq_intXor, bitOf_eq_testBit, Int.testBit_lxor]
  cases u.testBit i <;> cases v.testBit i <;> rfl

theorem bitOf_lnot (i : Nat) (u : Int) : bitOf i (lnot u) = 1 - bitOf i u := by
  simp only [lnot_eq_intLnot, bitOf_eq_testBit, Int.testBit_lnot]
  cases u.testBit i <;> rfl

/-- Settles O24: each operator is Mathlib's, whose bits are the operation of the operands' bits. -/
theorem bitwiseOperatorsActBitByBit : Obligations.BitwiseOperatorsActBitByBit :=
  fun u v i => ⟨bitOf_land i u v, bitOf_lor i u v, bitOf_lxor i u v, bitOf_lnot i u⟩

end Sys2Proof.Machine
end

section
/-! PROOF of O48, O50, O51, O52, O53. What a completed instruction writes, one lemma per field of the state, over the cases of
`Completed`. A faulting instruction writes RUNNING and FAULT alone (spec/60_exceptions.md R92), so `exec_cases` carries each
lemma to `exec`. PUSH and CALL are the two cases that go through a store. -/

namespace Sys2Proof.Machine

/-- CMP's result is one of its three values (spec/42_control.md R79). -/
theorem compareFlags_values (u v : Int) :
    compareFlags u v = flLess ∨ compareFlags u v = flGreater ∨ compareFlags u v = flEqual := by
  unfold compareFlags
  split_ifs <;> simp

theorem writtenRegisters_of_aluDestination {c : Config} {i : Instr} {ra : Byte} (h : aluDestination? i = some ra) :
    writtenRegisters c i = [ra.toNat] := by
  cases i <;> cases h <;> rfl

/-! ### The fields of a completed instruction's state -/

theorem Completed.cfg_eq {s t : State} {i : Instr} (h : Completed s i t) : t.cfg = s.cfg := by
  cases h
  case push store | call store =>
    obtain ⟨-, -, rfl⟩ := memWrite_eq_ok.1 store
    rfl
  all_goals rfl

theorem Completed.fault_eq {s t : State} {i : Instr} (h : Completed s i t) : t.fault = s.fault := by
  cases h
  case push store | call store =>
    obtain ⟨-, -, rfl⟩ := memWrite_eq_ok.1 store
    rfl
  all_goals rfl

/-- Only HLT stops the CORE without a fault. -/
theorem Completed.running_cases {s t : State} {i : Instr} (h : Completed s i t) :
    t.running = s.running ∨ (i = .hlt ∧ t.running = false) := by
  cases h
  case hlt => exact .inr ⟨rfl, rfl⟩
  case push store | call store =>
    obtain ⟨-, -, rfl⟩ := memWrite_eq_ok.1 store
    exact .inl rfl
  all_goals exact .inl rfl

theorem Completed.fl_cases {s t : State} {i : Instr} (h : Completed s i t) :
    t.fl = s.fl ∨ ∃ ra rb, i = .cmp ra rb ∧ (t.fl = flLess ∨ t.fl = flGreater ∨ t.fl = flEqual) := by
  cases h
  case cmp ra rb a b _ _ => exact .inr ⟨ra, rb, rfl, compareFlags_values (s.x a) (s.x b)⟩
  case push store | call store =>
    obtain ⟨-, -, rfl⟩ := memWrite_eq_ok.1 store
    exact .inl rfl
  all_goals exact .inl rfl

/-- CALL's latch value is a byte, because it went through the stack's byte store too. -/
theorem Completed.latch_cases {s t : State} {i : Instr} (h : Completed s i t) :
    t.latch = s.latch ∨ ∃ ra, i = .call ra ∧ t.latch = some (s.pc + 2) ∧ isByteValue (s.pc + 2) := by
  cases h
  case call ra a u _ store =>
    obtain ⟨-, byte, rfl⟩ := memWrite_eq_ok.1 store
    exact .inr ⟨ra, rfl, rfl, byte⟩
  case push store =>
    obtain ⟨-, -, rfl⟩ := memWrite_eq_ok.1 store
    exact .inl rfl
  all_goals exact .inl rfl

theorem Completed.out_cases {s t : State} {i : Instr} (h : Completed s i t) :
    t.out = s.out ∨ ∃ (ra : Byte) (a : Fin 8), i = .prn ra ∧ ra.toNat = a.val ∧ t.out = s.out ++ [s.x a] := by
  cases h
  case prn ra a field => exact .inr ⟨ra, a, rfl, field, rfl⟩
  case push store | call store =>
    obtain ⟨-, -, rfl⟩ := memWrite_eq_ok.1 store
    exact .inl rfl
  all_goals exact .inl rfl

theorem Completed.mem_wf {s t : State} {i : Instr} (h : Completed s i t) (hm : s.mem.wf) : t.mem.wf := by
  cases h
  case push u _ store =>
    have stored : u.mem.wf := memWrite_wf (s := s.decSp) hm store
    exact stored
  case call u _ store =>
    have stored : u.mem.wf := memWrite_wf (s := (s.setLatch (s.pc + 2)).decSp) hm store
    exact stored
  all_goals exact hm

/-- A register outside the written ones of spec/10_state.md R18 keeps its value. -/
theorem Completed.x_eq {s t : State} {i : Instr} (h : Completed s i t) {j : Fin 8}
    (hj : j.val ∉ writtenRegisters s.cfg i) : t.x j = s.x j := by
  cases h
  case retLatch stack field _ _ =>
    simp only [writtenRegisters, stack, field, Bool.false_eq_true, if_false, List.mem_cons, List.not_mem_nil, or_false,
      not_or] at hj
    simp [Fin.ext_iff, hj]
  case retStack stack _ =>
    simp only [writtenRegisters, stack, if_true, List.mem_singleton] at hj
    simp [Fin.ext_iff, hj]
  case push store | call store =>
    obtain ⟨-, -, rfl⟩ := memWrite_eq_ok.1 store
    simp only [writtenRegisters, List.mem_singleton] at hj
    simp [Fin.ext_iff, hj]
  case pop field _ =>
    simp only [writtenRegisters, field, List.mem_cons, List.not_mem_nil, or_false, not_or] at hj
    simp [Fin.ext_iff, hj]
  case ldi field =>
    simp only [writtenRegisters, field, List.mem_singleton] at hj
    simp [Fin.ext_iff, hj]
  case alu field destination =>
    rw [writtenRegisters_of_aluDestination destination, field, List.mem_singleton] at hj
    simp [Fin.ext_iff, hj]
  all_goals rfl

/-! ### The rules about every instruction -/

/-- Settles O48: a completed instruction writes its written registers alone, a faulting one no register. -/
theorem registersChangeOnlyAsDestinations : Obligations.RegistersChangeOnlyAsDestinations := by
  intro i s t j h hj
  obtain done | ⟨k, rfl⟩ := exec_cases h
  · exact done.x_eq hj
  · exact State.raise_x s k j

/-- Settles O50: CMP is the one case of a completed instruction that writes FL. -/
theorem flagsChangeOnlyByCmp : Obligations.FlagsChangeOnlyByCmp := by
  intro i s t h
  obtain done | ⟨k, rfl⟩ := exec_cases h
  · exact done.fl_cases
  · exact .inl (State.raise_fl s k)

/-- Settles O51: CALL is the one case of a completed instruction that writes LATCH. -/
theorem latchChangesOnlyByCall : Obligations.LatchChangesOnlyByCall := by
  intro i s t h
  obtain done | ⟨k, rfl⟩ := exec_cases h
  · exact done.latch_cases.imp_right fun ⟨ra, hi, latch, _⟩ => ⟨ra, hi, latch⟩
  · exact .inl (State.raise_latch s k)

/-- Settles O52: PRN is the one case of a completed instruction that writes OUT. -/
theorem outputGrowsOnlyByPrn : Obligations.OutputGrowsOnlyByPrn := by
  intro i s t h
  obtain done | ⟨k, rfl⟩ := exec_cases h
  · obtain same | ⟨ra, a, hi, field, out⟩ := done.out_cases
    · exact .inl same
    · have index : isRegIndex ra := field.trans_lt a.isLt
      have named : regOf ra index = a := Fin.ext field
      exact .inr ⟨ra, index, hi, named ▸ out⟩
  · exact .inl (State.raise_out s k)

/-- Settles O53: a completed instruction leaves FAULT alone, and RUNNING too unless it is HLT. -/
theorem runningAndFaultChangeOnlyByHltOrFault : Obligations.RunningAndFaultChangeOnlyByHltOrFault := by
  intro i s t h
  obtain done | ⟨k, rfl⟩ := exec_cases h
  · refine ⟨done.cfg_eq, ?_⟩
    obtain same | ⟨hi, stopped⟩ := done.running_cases
    · exact .inl ⟨same, done.fault_eq⟩
    · exact .inr (.inl ⟨hi, stopped, done.fault_eq⟩)
  · exact ⟨State.raise_cfg s k, .inr (.inr ⟨k, rfl⟩)⟩

end Sys2Proof.Machine
end

section
/-! PROOF of O16, O17. The machine's invariant holds after reset, a fault entry keeps it, and a completed instruction of a
running CORE keeps it. -/

namespace Sys2Proof.Machine

/-- The invariant allows a fault in a stopped CORE only. -/
theorem State.Inv.fault_eq_none {s : State} (hs : s.Inv) (running : s.running = true) : s.fault = none := by
  refine Option.eq_none_iff_forall_not_mem.2 fun r hr => ?_
  exact absurd running (by simp [(hs.fault r hr).1])

/-- A fault entry stops the CORE and records the pc it leaves in place. -/
theorem State.Inv.raise {s : State} (hs : s.Inv) (k : FaultCause) : (s.raise k).Inv where
  memory := hs.memory
  config := hs.config
  flags := hs.flags
  latch := hs.latch
  fault := by simp

/-- A completed instruction keeps the invariant. That the latch is at least 2 is the pc's lower bound at the fetch. -/
theorem Completed.inv {s t : State} {i : Instr} (h : Completed s i t) (hs : s.Inv) (running : s.running = true)
    (low : 0 ≤ s.pc) : t.Inv where
  memory := h.mem_wf hs.memory
  config := by
    rw [h.cfg_eq]
    exact hs.config
  flags := by
    obtain same | ⟨-, -, -, less | greater | equal⟩ := h.fl_cases
    · rw [same]
      exact hs.flags
    · simp [less]
    · simp [greater]
    · simp [equal]
  latch := by
    obtain same | ⟨-, -, latch, byte⟩ := h.latch_cases
    · rw [same]
      exact hs.latch
    · intro v hv
      obtain rfl : s.pc + 2 = v := by simpa [latch] using hv
      exact ⟨by omega, byte.2⟩
  fault := by simp [h.fault_eq, hs.fault_eq_none running]

/-- Settles O17, over the cases of a step: nothing happens, the fetch faults, or the decoded instruction completes or
faults. -/
theorem stepKeepsTheInvariant : Obligations.StepKeepsTheInvariant := by
  intro s t hs h
  obtain ⟨-, rfl⟩ | ⟨-, k, -, rfl⟩ | ⟨w, fetched, h⟩ := step_cases h
  · exact hs
  · exact hs.raise k
  · obtain done | ⟨k, rfl⟩ := exec_cases h
    · exact done.inv hs fetched.running fetched.low
    · exact hs.raise k

/-- Settles O16: memory, LATCH and FAULT are empty, FL is 0 and the default map is the LS-8's. -/
theorem resetMeetsTheInvariant : Obligations.ResetMeetsTheInvariant where
  memory := Memory.wf_nil
  config := OpcodeMap.ls8_injective
  flags := List.mem_cons_self
  latch := by simp [State.reset, State.resetWith]
  fault := by simp [State.reset, State.resetWith]

end Sys2Proof.Machine
end

section
/-! PROOF of O54, O55. Changing FL and LATCH before an instruction that reads and writes neither is changing them after it. The
change is taken as one map of the two fields, so that each meaning is treated once for
`setFl` and `setLatch` both. -/

namespace Sys2Proof.Machine

/-- The state with FL changed by one function and LATCH by another. -/
def State.mapFlLatch (f : Byte → Byte) (g : Option Int → Option Int) (s : State) : State :=
  { s with fl := f s.fl, latch := g s.latch }

theorem setFl_eq_mapFlLatch (s : State) (fl : Byte) : s.setFl fl = s.mapFlLatch (fun _ => fl) id := rfl

theorem setLatch_eq_mapFlLatch (s : State) (v : Int) : s.setLatch v = s.mapFlLatch id (fun _ => some v) := rfl

/-! ### A change of the state carried through a sequence of operations -/

/-- An operation that answers the same value in the changed state. -/
theorem bind_eq_map {α : Type} {F : State → State} {x : Except FaultCause α} {k k' : α → Except FaultCause State}
    (h : ∀ a, k' a = (k a).map F) : (x >>= k') = (x >>= k).map F := by
  cases x with
  | ok a => exact h a
  | error j => rfl

/-- An operation that answers the changed state. -/
theorem bind_eq_map_of_map {F : State → State} {x x' : Except FaultCause State} {k k' : State → Except FaultCause State}
    (hx : x' = x.map F) (h : ∀ u, k' (F u) = (k u).map F) : (x' >>= k') = (x >>= k).map F := by
  subst hx
  cases x with
  | ok u => exact h u
  | error j => rfl

section
variable (f : Byte → Byte) (g : Option Int → Option Int) (s : State)

/-- A step's end keeps the change in the completed state, and in the state a fault is entered from. -/
theorem commit_mapFlLatch {r r' : Except FaultCause State} (h : r' = r.map (State.mapFlLatch f g)) :
    commit (s.mapFlLatch f g) r' = mapNext (State.mapFlLatch f g) (commit s r) := by
  subst h
  cases r <;> rfl

/-! ### The shared operations neither read nor write FL and LATCH -/

theorem memWrite_mapFlLatch (a v : Int) :
    (s.mapFlLatch f g).memWrite a v = (s.memWrite a v).map (State.mapFlLatch f g) := by
  unfold State.memWrite
  split_ifs <;> rfl

theorem popInto_mapFlLatch (i : Fin 8) : (s.mapFlLatch f g).popInto i = (s.popInto i).map (State.mapFlLatch f g) :=
  bind_eq_map (x := s.memRead s.sp) fun _ => rfl

theorem aluApply_mapFlLatch (op : Opcode) (a b : Fin 8) :
    (s.mapFlLatch f g).aluApply op a b = (s.aluApply op a b).map (State.mapFlLatch f g) :=
  bind_eq_map (x := aluFunction op (s.x a) (s.x b)) fun _ => rfl

theorem aluBinary_mapFlLatch (op : Opcode) (ra rb : Byte) :
    aluBinary op ra rb (s.mapFlLatch f g) = (aluBinary op ra rb s).map (State.mapFlLatch f g) :=
  bind_eq_map (x := s.requireDecodable op) fun _ => bind_eq_map fun a => bind_eq_map fun b =>
    bind_eq_map_of_map (aluApply_mapFlLatch f g s op a b) fun _ => rfl

theorem aluUnary_mapFlLatch (op : Opcode) (ra : Byte) :
    aluUnary op ra (s.mapFlLatch f g) = (aluUnary op ra s).map (State.mapFlLatch f g) :=
  bind_eq_map (x := s.requireDecodable op) fun _ => bind_eq_map fun a =>
    bind_eq_map_of_map (aluApply_mapFlLatch f g s op a a) fun _ => rfl

/-! ### The instructions -/

/-- Every instruction but those that read or write FL or LATCH. -/
theorem exec_mapFlLatch {i : Instr} (jump : ∀ ra, i ≠ .jeq ra ∧ i ≠ .jne ra) (cmp : ∀ ra rb, i ≠ .cmp ra rb)
    (link : ∀ ra, i ≠ .ret ra ∧ i ≠ .call ra) :
    exec i (s.mapFlLatch f g) = mapNext (State.mapFlLatch f g) (exec i s) := by
  cases i
  case jeq ra => exact absurd rfl (jump ra).1
  case jne ra => exact absurd rfl (jump ra).2
  case cmp ra rb => exact absurd rfl (cmp ra rb)
  case ret ra => exact absurd rfl (link ra).1
  case call ra => exact absurd rfl (link ra).2
  case hlt | illegal => rfl
  case prn | jmp | ldi => exact commit_mapFlLatch f g s (bind_eq_map fun _ => rfl)
  case push =>
    exact commit_mapFlLatch f g s (bind_eq_map fun a =>
      bind_eq_map_of_map (memWrite_mapFlLatch f g s.decSp s.pushAddress (s.decSp.x a)) fun _ => rfl)
  case pop =>
    exact commit_mapFlLatch f g s (bind_eq_map fun a => bind_eq_map_of_map (popInto_mapFlLatch f g s a) fun _ => rfl)
  case inc | dec | not => exact commit_mapFlLatch f g s (aluUnary_mapFlLatch f g s _ _)
  all_goals exact commit_mapFlLatch f g s (aluBinary_mapFlLatch f g s _ _ _)

/-! ### The instructions that use FL, when FL is kept -/

theorem execJeq_mapLatch (ra : Byte) :
    execJeq ra (s.mapFlLatch id g) = mapNext (State.mapFlLatch id g) (execJeq ra s) :=
  commit_mapFlLatch id g s (bind_eq_map fun _ => rfl)

theorem execJne_mapLatch (ra : Byte) :
    execJne ra (s.mapFlLatch id g) = mapNext (State.mapFlLatch id g) (execJne ra s) :=
  commit_mapFlLatch id g s (bind_eq_map fun _ => rfl)

theorem execCmp_mapLatch (ra rb : Byte) :
    execCmp ra rb (s.mapFlLatch id g) = mapNext (State.mapFlLatch id g) (execCmp ra rb s) :=
  commit_mapFlLatch id g s (bind_eq_map fun _ => bind_eq_map fun _ => rfl)

/-! ### The instructions that use LATCH, when LATCH is kept -/

theorem execCall_mapFl (ra : Byte) :
    execCall ra (s.mapFlLatch f id) = mapNext (State.mapFlLatch f id) (execCall ra s) :=
  commit_mapFlLatch f id s (bind_eq_map fun _ =>
    bind_eq_map_of_map (memWrite_mapFlLatch f id (s.setLatch (s.pc + 2)).decSp s.pushAddress (s.pc + 2)) fun _ => rfl)

theorem retFromLatch_mapFl (ra : Byte) :
    retFromLatch ra (s.mapFlLatch f id) = (retFromLatch ra s).map (State.mapFlLatch f id) :=
  bind_eq_map fun a => bind_eq_map_of_map (popInto_mapFlLatch f id s a) fun
    | { latch := none, .. } => rfl
    | { latch := some _, .. } => rfl

theorem retFromStack_mapFl :
    retFromStack (s.mapFlLatch f id) = (retFromStack s).map (State.mapFlLatch f id) :=
  bind_eq_map (x := s.memRead s.sp) fun _ => rfl

theorem execRet_mapFl (ra : Byte) :
    execRet ra (s.mapFlLatch f id) = mapNext (State.mapFlLatch f id) (execRet ra s) := by
  refine commit_mapFlLatch f id s ?_
  have config : (s.mapFlLatch f id).cfg = s.cfg := rfl
  rw [config]
  split
  · exact retFromStack_mapFl f s
  · exact retFromLatch_mapFl f s ra

end

/-- Settles O54: RET and CALL keep FL too, and every other instruction it names touches neither FL nor LATCH. -/
theorem flagsInfluenceOnlyConditionalJumps : Obligations.FlagsInfluenceOnlyConditionalJumps := by
  intro i s fl jump cmp
  rw [setFl_eq_mapFlLatch]
  cases i
  case ret ra => exact execRet_mapFl (fun _ => fl) s ra
  case call ra => exact execCall_mapFl (fun _ => fl) s ra
  all_goals exact exec_mapFlLatch (fun _ => fl) id s jump cmp (by simp)

/-- Settles O55: JEQ, JNE and CMP keep LATCH too, and every other instruction it names touches neither FL nor LATCH. -/
theorem latchInfluencesOnlyRet : Obligations.LatchInfluencesOnlyRet := by
  intro i s v link
  rw [setLatch_eq_mapFlLatch]
  cases i
  case jeq ra => exact execJeq_mapLatch (fun _ => some v) s ra
  case jne ra => exact execJne_mapLatch (fun _ => some v) s ra
  case cmp ra rb => exact execCmp_mapLatch (fun _ => some v) s ra rb
  all_goals exact exec_mapFlLatch id (fun _ => some v) s (by simp) (by simp) link

end Sys2Proof.Machine
end

section
/-! PROOF of O8, O15, O23: the stopped CORE, the state after reset, and the register file. -/

namespace Sys2Proof.Machine

theorem step_of_stopped {s : State} (stopped : s.running = false) : step s = .next s := by
  simp [step, stopped]

theorem run_of_stopped {s : State} (stopped : s.running = false) (n : Nat) : run n s = s := by
  cases n with
  | zero => rfl
  | succ n => simp [run, stopped]

/-- The host's run takes its steps, and each answers the same state. -/
theorem coreRun_of_stopped {s : State} (stopped : s.running = false) (n : Nat) : core.run n s = .next s := by
  induction n with
  | zero => rfl
  | succ n ih =>
    have same : core.step s = .next s := step_of_stopped stopped
    simpa only [Host.Core.run, same] using ih

/-- Settles O8: the model's run stops at once, and the host's run is a sequence of steps that change nothing. -/
theorem stoppedCoreNeverChanges : Obligations.StoppedCoreNeverChanges :=
  fun _ n stopped => ⟨run_of_stopped stopped n, coreRun_of_stopped stopped n⟩

theorem resetWith_readByte (c : Config) (a : Nat) : (State.resetWith c).readByte a = 0 := Memory.read_nil a

/-- Settles O15: each value is the field `State.resetWith` writes, and the empty memory reads as 0. -/
theorem resetLeavesTheSpecsValues : Obligations.ResetLeavesTheSpecsValues :=
  ⟨fun c => ⟨rfl, rfl, rfl, rfl, rfl, rfl, rfl, rfl, rfl, rfl, rfl, rfl, rfl, rfl, rfl, resetWith_readByte c⟩,
    rfl, rfl, rfl, rfl⟩

/-- Settles O23, by the register file's read-after-write law. -/
theorem registerWriteIsReadBack : Obligations.RegisterWriteIsReadBack := by
  intro s i j v
  refine ⟨?_, fun other => ?_, rfl⟩
  · rw [State.setX_x, if_pos rfl]
  · rw [State.setX_x, if_neg other]

end Sys2Proof.Machine
end

section
/-! PROOF of O21, O22, O39, O49: the memory address unit's reads and writes, and the instructions' stores. A byte changes only
by a store that succeeds, and only PUSH and CALL make one. -/

namespace Sys2Proof.Machine

/-! ### The address unit -/

/-- The rules of spec/20_memory.md write an address outside memory as two comparisons. -/
theorem not_inMemory {addr : Int} : ¬ inMemory addr ↔ addr < 0 ∨ 255 < addr := by
  show ¬ (0 ≤ addr ∧ addr ≤ 255) ↔ _
  omega

theorem not_isByteValue {v : Int} : ¬ isByteValue v ↔ v < 0 ∨ 255 < v := by
  show ¬ (0 ≤ v ∧ v ≤ 255) ↔ _
  omega

/-- Settles O21: the two outcomes of `memRead`, by whether the address exists. -/
theorem memReadChecksTheAddress : Obligations.MemReadChecksTheAddress :=
  fun _ _ => ⟨fun outside => memRead_of_not (not_inMemory.2 outside), fun inside => memRead_of inside⟩

/-- A stored value is read back from its cell. -/
theorem memWrite_readBack {s t : State} {addr v : Int} (hm : s.mem.wf) (store : s.memWrite addr v = .ok t) :
    zext8 (t.readByte addr.toNat) = v := by
  obtain ⟨⟨low, -⟩, byte, -⟩ := memWrite_eq_ok.1 store
  rw [memWrite_readByte hm store, if_pos (Int.toNat_of_nonneg low), zext8_ofInt byte]

/-- A store leaves every other cell alone, in any memory. -/
theorem memWrite_sameMemoryOutside {s t : State} {addr v : Int} (store : s.memWrite addr v = .ok t) :
    SameMemoryOutside addr s t := by
  intro other ne
  obtain ⟨⟨low, -⟩, -, rfl⟩ := memWrite_eq_ok.1 store
  exact Memory.read_write_of_ne s.mem _ (by omega)

/-- When one cell alone may have changed, `memRead` answers as before at every other address, faults included. -/
theorem memRead_of_sameMemoryOutside {s t : State} {addr other : Int} (same : SameMemoryOutside addr s t)
    (ne : other ≠ addr) : t.memRead other = s.memRead other := by
  by_cases inside : inMemory other
  · have cell : (other.toNat : Int) = other := Int.toNat_of_nonneg inside.1
    rw [memRead_of inside, memRead_of inside, same other.toNat (cell.trans_ne ne)]
  · rw [memRead_of_not inside, memRead_of_not inside]

/-- Settles O22: the two checks in `memWrite`'s order, then the laws of a store that succeeds. -/
theorem storedByteIsReadBack : Obligations.StoredByteIsReadBack := by
  intro s addr v
  refine ⟨fun outside => memWrite_of_not_inMemory (not_inMemory.2 outside),
    fun inside bad => memWrite_of_not_byte inside (not_isByteValue.2 bad), fun inside byte hm => ?_⟩
  have store := memWrite_of (s := s) inside byte
  refine ⟨_, store, memWrite_frame store, memWrite_wf hm store, ?_,
    fun other ne => memRead_of_sameMemoryOutside (memWrite_sameMemoryOutside store) ne⟩
  rw [memRead_of inside]
  exact congrArg Except.ok (memWrite_readBack hm store)

/-! ### The instructions -/

/-- An instruction that completes and is neither PUSH nor CALL stores nothing. -/
theorem Completed.sameMemory {s t : State} {i : Instr} (h : Completed s i t)
    (storeless : ∀ ra, i ≠ .push ra ∧ i ≠ .call ra) : SameMemory s t := by
  cases h
  case push ra _ _ _ _ => exact absurd rfl (storeless ra).1
  case call ra _ _ _ _ => exact absurd rfl (storeless ra).2
  all_goals exact fun _ => rfl

/-- PUSH and CALL store to the push address, and the other instructions store nothing. -/
theorem Completed.sameMemoryOutside {s t : State} {i : Instr} (h : Completed s i t) :
    SameMemoryOutside s.pushAddress s t := by
  cases h
  case push store | call store => exact fun addr ne => memWrite_sameMemoryOutside store addr ne
  all_goals exact fun _ _ => rfl

/-- Settles O49: a completed instruction by its two frames, a faulting one because it writes no memory. -/
theorem memoryChangesOnlyByPushAndCall : Obligations.MemoryChangesOnlyByPushAndCall := by
  intro i s t h
  obtain done | ⟨k, rfl⟩ := exec_cases h
  · exact ⟨done.sameMemoryOutside, done.sameMemory⟩
  · exact ⟨fun addr _ => State.raise_readByte s k addr, fun _ => State.raise_readByte s k⟩

/-- PUSH's value, read after the decrement (spec/41_transfer.md R73), is the byte at the push address once it completes. -/
theorem Completed.push_readBack {s t : State} {ra : Byte} (h : Completed s (.push ra) t) (hm : s.mem.wf)
    (ha : isRegIndex ra) : zext8 (t.readByte s.pushAddress.toNat) = s.decSp.x (regOf ra ha) := by
  cases h with
  | @push _ a u field store =>
    have named : regOf ra ha = a := Fin.ext field
    rw [named, State.advance_readByte, memWrite_readBack (s := s.decSp) hm store]
  | alu destination => cases destination

/-- Settles O39: the CORE still runs after the PUSH, so the PUSH completed, and each byte of the window is read from the memory
it left. -/
theorem nextFetchSeesThePushedByte : Obligations.NextFetchSeesThePushedByte := by
  intro s t w ra ha hm h fetched
  obtain done | ⟨k, rfl⟩ := exec_cases h
  · have pushed := done.push_readBack hm ha
    rw [State.decSp_x] at pushed
    refine ⟨fun at_ir => ?_, fun at_a => ?_, fun at_b => ?_⟩
    · rw [← fetched.ir, at_ir, pushed]
    · rw [← fetched.a, at_a, pushed]
    · rw [← fetched.b, at_b, pushed]
  · cases fetched.running

end Sys2Proof.Machine
end

section
/-! PROOF of O1, O2, O3, O4. An instruction with a mnemonic is encoded as the mnemonic's byte and the operand bytes its format
uses, and in an injective map that byte is looked up as the mnemonic alone. A byte of no mnemonic is ILLEGAL's. -/

namespace Sys2Proof

/-! ### The encoder by mnemonic -/

theorem Instr.opcode?_ofOpcode (op : Opcode) (a b : Byte) : (Instr.ofOpcode op a b).opcode? = some op := by
  cases op <;> rfl

theorem Instr.eq_illegal_of_opcode?_eq_none {i : Instr} (h : i.opcode? = none) : ∃ ir, i = .illegal ir := by
  cases i <;> cases h
  exact ⟨_, rfl⟩

theorem encode_ir {i : Instr} {op : Opcode} (m : OpcodeMap) (h : i.opcode? = some op) :
    (encode m i).ir = m.byteOf op := by
  cases i <;> cases h <;> rfl

/-- The encoder keeps every operand byte of the instruction. -/
theorem ofOpcode_encode {i : Instr} {op : Opcode} (m : OpcodeMap) (h : i.opcode? = some op) :
    Instr.ofOpcode op (encode m i).a (encode m i).b = i := by
  cases i <;> cases h <;> rfl

theorem encode_ofOpcode_ir (m : OpcodeMap) (op : Opcode) (a b : Byte) :
    (encode m (.ofOpcode op a b)).ir = m.byteOf op :=
  encode_ir m (Instr.opcode?_ofOpcode op a b)

/-- HLT is the one mnemonic whose format ignores byte A. -/
theorem encode_ofOpcode_a (m : OpcodeMap) (op : Opcode) (a b : Byte) :
    (encode m (.ofOpcode op a b)).a = a ∨ ∀ a', Instr.ofOpcode op a' b = .ofOpcode op a b := by
  cases op
  case hlt => exact .inr fun _ => rfl
  all_goals exact .inl rfl

/-- The formats F0, FR and FRX ignore byte B. -/
theorem encode_ofOpcode_b (m : OpcodeMap) (op : Opcode) (a b : Byte) :
    (encode m (.ofOpcode op a b)).b = b ∨ ∀ b', Instr.ofOpcode op a b' = .ofOpcode op a b := by
  cases op
  case hlt | ret | push | pop | prn | call | jmp | jeq | jne | inc | dec | not => exact .inr fun _ => rfl
  all_goals exact .inl rfl

/-! ### The decoder on a mnemonic's byte and on ILLEGAL's -/

theorem decode_byteOf {m : OpcodeMap} (hm : m.injective) (op : Opcode) (a b : Byte) :
    decode m ⟨m.byteOf op, a, b⟩ = .ofOpcode op a b :=
  decode_of_lookup (w := ⟨m.byteOf op, a, b⟩) (OpcodeMap.lookup_byteOf hm op)

theorem Instr.encodable_illegal {m : OpcodeMap} {ir : Byte} :
    (Instr.illegal ir).encodable m = true ↔ m.lookup ir = none := by
  simp [Instr.encodable, OpcodeMap.lookup_eq_none, Opcode.mem_all]

/-- Settles O1: a mnemonic's byte is looked up as that mnemonic, and an encodable illegal byte as none. -/
theorem decodeOfEncodeIsTheInstruction : Obligations.DecodeOfEncodeIsTheInstruction := by
  intro m i hm encodable
  cases h : i.opcode? with
  | some op =>
    have found : m.lookup (encode m i).ir = some op := by
      rw [encode_ir m h]
      exact OpcodeMap.lookup_byteOf hm op
    rw [decode_of_lookup found, ofOpcode_encode m h]
  | none =>
    obtain ⟨ir, rfl⟩ := Instr.eq_illegal_of_opcode?_eq_none h
    exact decode_of_lookup_none (w := ⟨ir, 0, 0⟩) (Instr.encodable_illegal.1 encodable)

/-- Settles O2: a byte looked up as a mnemonic is that mnemonic's, and ILLEGAL depends on no operand byte. -/
theorem encodeOfDecodeKeepsEveryUsedByte : Obligations.EncodeOfDecodeKeepsEveryUsedByte := by
  rintro m ⟨ir, a, b⟩
  cases h : m.lookup ir with
  | some op =>
    have decoded (a b : Byte) : decode m ⟨ir, a, b⟩ = .ofOpcode op a b := decode_of_lookup (w := ⟨ir, a, b⟩) h
    simp only [decoded]
    exact ⟨(encode_ofOpcode_ir m op a b).trans (OpcodeMap.byteOf_of_lookup h), encode_ofOpcode_a m op a b,
      encode_ofOpcode_b m op a b⟩
  | none =>
    have decoded (a b : Byte) : decode m ⟨ir, a, b⟩ = .illegal ir := decode_of_lookup_none (w := ⟨ir, a, b⟩) h
    simp only [decoded]
    exact ⟨rfl, .inr fun _ => trivial, .inr fun _ => trivial⟩

/-- Settles O3: each of the 24 bytes is its mnemonic's in the default map, and the last byte is no mnemonic's. -/
theorem defaultOpcodeBytesDecode : Obligations.DefaultOpcodeBytesDecode := by
  have row := decode_byteOf OpcodeMap.ls8_injective
  have unlisted : OpcodeMap.ls8.lookup 0b00010011 = none := by decide
  exact ⟨row .hlt 0 0x99, row .ret 1 0x99, row .push 2 0x99, row .pop 3 0x99, row .prn 4 0x99, row .call 5 0x99,
    row .jmp 6 0x99, row .jeq 7 0x99, row .jne 8 0x99, row .inc 0 0x99, row .dec 1 0x99, row .not 2 0x99,
    row .ldi 3 0, row .add 4 5, row .sub 5 1, row .mul 6 6, row .div 7 2, row .mod 8 7, row .cmp 0 3, row .and 1 8,
    row .or 2 4, row .xor 3 0, row .shl 4 5, row .shr 5 1, decode_of_lookup_none (w := ⟨0b00010011, 0, 0⟩) unlisted⟩

/-! ### Counting the undecoded byte values -/

/-- The byte values, as numbers, that the decodable mnemonics of a configuration have. -/
def Config.decodedBytes (c : Config) : List Nat :=
  (Opcode.all.filter c.decodable).map fun op => (c.opcodeMap.byteOf op).toNat

/-- The byte values that no decodable mnemonic of a configuration has (spec/30_encoding.md R50), as O4 writes them. -/
def Config.undecodedBytes (c : Config) : List Nat :=
  (List.range 256).filter fun n =>
    Opcode.all.all fun op => !(c.decodable op && c.opcodeMap.byteOf op == BitVec.ofNat 8 n)

theorem Config.mem_decodedBytes {c : Config} {n : Nat} :
    n ∈ c.decodedBytes ↔ ∃ op, c.decodable op = true ∧ (c.opcodeMap.byteOf op).toNat = n := by
  simp [Config.decodedBytes, Opcode.mem_all]

theorem Config.decodedBytes_lt {c : Config} {n : Nat} (h : n ∈ c.decodedBytes) : n < 256 := by
  obtain ⟨op, -, rfl⟩ := Config.mem_decodedBytes.1 h
  exact (c.opcodeMap.byteOf op).isLt

theorem Config.decodedBytes_nodup {c : Config} (hc : c.opcodeMap.injective) : c.decodedBytes.Nodup := by
  have bytes : ((Opcode.all.filter c.decodable).map c.opcodeMap.byteOf).Nodup :=
    hc.sublist (List.filter_sublist.map _)
  have numbers := bytes.map (f := BitVec.toNat) fun _ _ => BitVec.eq_of_toNat_eq
  rwa [List.map_map] at numbers

/-- The byte values below 256 are the decoded ones and the undecoded ones. -/
theorem Config.undecodedBytes_eq_filter (c : Config) :
    c.undecodedBytes = (List.range 256).filter fun n => !decide (n ∈ c.decodedBytes) := by
  refine List.filter_congr fun n hn => ?_
  have number (op : Opcode) : c.opcodeMap.byteOf op = BitVec.ofNat 8 n ↔ (c.opcodeMap.byteOf op).toNat = n := by
    rw [← BitVec.toNat_inj, BitVec.toNat_ofNat, Nat.mod_eq_of_lt (List.mem_range.1 hn)]
  rw [Bool.eq_iff_iff]
  simp [Config.mem_decodedBytes, Opcode.mem_all, number, imp_iff_not_or]

/-- In an injective map every decodable mnemonic takes one of the 256 byte values for itself. -/
theorem Config.undecodedBytes_length {c : Config} (hc : c.opcodeMap.injective) :
    (Opcode.all.filter c.decodable).length + c.undecodedBytes.length = 256 := by
  have parts := List.length_eq_length_filter_add (l := List.range 256) fun n => decide (n ∈ c.decodedBytes)
  have decoded : ((List.range 256).filter fun n => decide (n ∈ c.decodedBytes)).Perm c.decodedBytes := by
    rw [List.perm_ext_iff_of_nodup (List.nodup_range.filter _) (Config.decodedBytes_nodup hc)]
    intro n
    simpa using Config.decodedBytes_lt
  rw [decoded.length_eq, ← c.undecodedBytes_eq_filter, List.length_range, Config.decodedBytes, List.length_map] at parts
  exact parts.symm

/-- Settles O4: 19 mnemonics are decodable by default and 24 with `ROUTE_ALL_ALU`, each with a byte of its own. -/
theorem undecodedByteCounts : Obligations.UndecodedByteCounts := by
  have unrouted : (Opcode.all.filter Config.default.decodable).length = 19 := by decide
  have routed : (Opcode.all.filter { Config.default with routeAllAlu := true }.decodable).length = 24 := by decide
  constructor
  · have total := Config.undecodedBytes_length (c := Config.default) OpcodeMap.ls8_injective
    show Config.default.undecodedBytes.length = 237
    omega
  · have total := Config.undecodedBytes_length (c := { Config.default with routeAllAlu := true }) OpcodeMap.ls8_injective
    show { Config.default with routeAllAlu := true }.undecodedBytes.length = 232
    omega

end Sys2Proof
end

section
/-! PROOF of O6, O13, O14: the faults of the fetch, of a register field and of ILLEGAL, each entered before the instruction does
anything else. -/

namespace Sys2Proof.Machine

/-! ### The fetch -/

theorem step_of_fetch_error {s : State} {k : FaultCause} (running : s.running = true) (h : s.fetch = .error k) :
    step s = .next (s.raise k) := by
  simp [step, running, h]

/-- Settles O6: below 0 and above 255 the first read faults, at 254 and 255 the read of address 256. -/
theorem fetchOutOfRangeFaults : Obligations.FetchOutOfRangeFaults := by
  intro s running
  refine ⟨fun outside => ?_, fun last => ?_⟩
  · exact step_of_fetch_error running (fetch_eq_error.2 (.inl ⟨not_inMemory.2 outside, rfl⟩))
  · exact step_of_fetch_error running (fetch_eq_error.2 (.inr ⟨last, rfl⟩))

/-! ### The register fields -/

/-- The first of the bytes that is no register index. -/
def firstBadField (fields : List Byte) : Option Byte := fields.find? fun b => decide (¬ isRegIndex b)

theorem firstBadField_cons {a n : Byte} {fields : List Byte} :
    firstBadField (a :: fields) = some n ↔
      (¬ isRegIndex a ∧ a = n) ∨ (isRegIndex a ∧ firstBadField fields = some n) := by
  by_cases ha : isRegIndex a
  · simp [firstBadField, ha]
  · simp [firstBadField, ha, Nat.not_lt.1 ha]

/-- A sequence that begins with the check of its one register field. -/
theorem regIndex_bind_of_firstBadField {a n : Byte} (bad : firstBadField [a] = some n) {β : Type}
    (f : Fin 8 → Except FaultCause β) : (regIndex a >>= f) = .error (registerFault n) := by
  obtain ⟨ha, rfl⟩ | ⟨-, empty⟩ := firstBadField_cons.1 bad
  · rw [regIndex_of_not_lt ha]
    rfl
  · cases empty

/-- A sequence that begins with the checks of its two register fields, A before B. -/
theorem regIndex_bind_bind_of_firstBadField {a b n : Byte} (bad : firstBadField [a, b] = some n) {β : Type}
    (f : Fin 8 → Fin 8 → Except FaultCause β) :
    (regIndex a >>= fun i => regIndex b >>= f i) = .error (registerFault n) := by
  obtain ⟨ha, rfl⟩ | ⟨ha, bad⟩ := firstBadField_cons.1 bad
  · rw [regIndex_of_not_lt ha]
    rfl
  · rw [regIndex_of_lt ha]
    exact regIndex_bind_of_firstBadField bad (f _)

theorem aluUnary_of_firstBadField {op : Opcode} {ra n : Byte} {s : State} (decodable : s.cfg.decodable op = true)
    (bad : firstBadField [ra] = some n) : aluUnary op ra s = .error (registerFault n) := by
  rw [aluUnary, requireDecodable_of decodable]
  exact regIndex_bind_of_firstBadField bad _

theorem aluBinary_of_firstBadField {op : Opcode} {ra rb n : Byte} {s : State} (decodable : s.cfg.decodable op = true)
    (bad : firstBadField [ra, rb] = some n) : aluBinary op ra rb s = .error (registerFault n) := by
  rw [aluBinary, requireDecodable_of decodable]
  exact regIndex_bind_bind_of_firstBadField bad _

/-- RET has a register field by default alone (spec/42_control.md R77). -/
theorem execRet_of_firstBadField {ra n : Byte} {s : State}
    (bad : firstBadField (if s.cfg.retFromStack then [] else [ra]) = some n) :
    execRet ra s = .next (s.raise (registerFault n)) := by
  split at bad
  · cases bad
  · next latch =>
    rw [execRet, if_neg latch]
    exact congrArg (commit s) (regIndex_bind_of_firstBadField bad _)

/-- Settles O13: every meaning with register fields begins with their checks, an ALU instruction's after the check that its
mnemonic is decodable. -/
theorem firstBadRegisterFieldFaults : Obligations.FirstBadRegisterFieldFaults := by
  intro i s n decodable bad
  cases i
  case hlt | illegal => cases bad
  case ret => exact execRet_of_firstBadField bad
  case push | pop | prn | call | jmp | jeq | jne | ldi =>
    exact congrArg (commit s) (regIndex_bind_of_firstBadField bad _)
  case cmp => exact congrArg (commit s) (regIndex_bind_bind_of_firstBadField bad _)
  case inc | dec | not => exact congrArg (commit s) (aluUnary_of_firstBadField decodable bad)
  all_goals exact congrArg (commit s) (aluBinary_of_firstBadField decodable bad)

/-! ### ILLEGAL -/

theorem exec_illegal (ir : Byte) (s : State) : exec (.illegal ir) s = .next (s.raise (.illegalInstruction ir)) :=
  commit_error s (.illegalInstruction ir)

/-- Settles O14: the fault's entry is the record update that the statement writes out. -/
theorem illegalByteEntersItsFault : Obligations.IllegalByteEntersItsFault :=
  fun s ir => exec_illegal ir s

end Sys2Proof.Machine
end

section
/-! PROOF of O25, O26, O27, O28, O29, O30, O31, O32, O33. An ALU instruction is decodable or illegal (spec/40_alu.md R53),
its register fields are checked, and then it is its operation of the ALU's table: a value for the destination register, or the
operation's own fault. Each statement is these rules for one operation, with the arithmetic of its value. -/

namespace Sys2Proof.Machine

/-! ### Which mnemonics are decodable -/

theorem decodable_of_routeAllAlu {c : Config} (routed : c.routeAllAlu = true) (op : Opcode) : c.decodable op = true := by
  simp [Config.decodable, routed]

theorem decodable_of_routedOnRequest_eq_false {op : Opcode} (always : op.routedOnRequest = false) (c : Config) :
    c.decodable op = true := by
  simp [Config.decodable, always]

theorem not_decodable_of_routedOnRequest {c : Config} {op : Opcode} (unrouted : c.routeAllAlu = false)
    (request : op.routedOnRequest = true) : ¬ c.decodable op = true := by
  simp [Config.decodable, unrouted, request]

/-! ### An ALU instruction, by what its checks and its operation answer -/

section
variable {s : State} {op : Opcode} {ra rb : Byte}

/-- The operation has a value: the destination takes it, and the pc moves on. -/
theorem commit_aluBinary_of_ok (decodable : s.cfg.decodable op = true) (ha : isRegIndex ra) (hb : isRegIndex rb) {v : Int}
    (value : aluFunction op (s.x (regOf ra ha)) (s.x (regOf rb hb)) = .ok v) :
    commit s (aluBinary op ra rb s) = .next { s with regs := s.regs.set (regOf ra ha) v, pc := s.pc + 3 } := by
  rw [aluBinary_of decodable ha hb, value]
  rfl

theorem commit_aluBinary_of_error (decodable : s.cfg.decodable op = true) (ha : isRegIndex ra) (hb : isRegIndex rb)
    {k : FaultCause} (fault : aluFunction op (s.x (regOf ra ha)) (s.x (regOf rb hb)) = .error k) :
    commit s (aluBinary op ra rb s) = .next (s.raise k) := by
  rw [aluBinary_of decodable ha hb, fault]
  rfl

theorem commit_aluUnary_of_ok (decodable : s.cfg.decodable op = true) (ha : isRegIndex ra) {v : Int}
    (value : aluFunction op (s.x (regOf ra ha)) (s.x (regOf ra ha)) = .ok v) :
    commit s (aluUnary op ra s) = .next { s with regs := s.regs.set (regOf ra ha) v, pc := s.pc + 3 } := by
  rw [aluUnary_of decodable ha, value]
  rfl

/-- The check of the mnemonic comes before any check of an operand byte. -/
theorem commit_aluBinary_of_not_decodable (undecodable : ¬ s.cfg.decodable op = true) :
    commit s (aluBinary op ra rb s) = .next (s.raise (.illegalInstruction (s.cfg.opcodeMap.byteOf op))) := by
  rw [aluBinary, requireDecodable_of_not undecodable]
  rfl

theorem commit_aluUnary_of_not_decodable (undecodable : ¬ s.cfg.decodable op = true) :
    commit s (aluUnary op ra s) = .next (s.raise (.illegalInstruction (s.cfg.opcodeMap.byteOf op))) := by
  rw [aluUnary, requireDecodable_of_not undecodable]
  rfl

end

/-- A binary operation that has a value for all operands: the result, a bad field A, and a bad field B. -/
theorem commit_aluBinary_of_total {op : Opcode} {f : Int → Int → Int} (total : ∀ u v, aluFunction op u v = .ok (f u v))
    {s : State} (decodable : s.cfg.decodable op = true) (ra rb : Byte) :
    (∀ (ha : isRegIndex ra) (hb : isRegIndex rb),
      commit s (aluBinary op ra rb s) =
        .next { s with regs := s.regs.set (regOf ra ha) (f (s.x (regOf ra ha)) (s.x (regOf rb hb))), pc := s.pc + 3 }) ∧
    (¬ isRegIndex ra → commit s (aluBinary op ra rb s) = .next (s.raise (registerFault ra))) ∧
    (isRegIndex ra → ¬ isRegIndex rb → commit s (aluBinary op ra rb s) = .next (s.raise (registerFault rb))) := by
  refine ⟨fun ha hb => commit_aluBinary_of_ok decodable ha hb (total _ _), fun badA => ?_, fun ha badB => ?_⟩
  · have first : firstBadField [ra, rb] = some ra := firstBadField_cons.2 (.inl ⟨badA, rfl⟩)
    exact congrArg (commit s) (aluBinary_of_firstBadField decodable first)
  · have first : firstBadField [ra, rb] = some rb :=
      firstBadField_cons.2 (.inr ⟨ha, firstBadField_cons.2 (.inl ⟨badB, rfl⟩)⟩)
    exact congrArg (commit s) (aluBinary_of_firstBadField decodable first)

/-! ### The operations that are not total, and their arithmetic -/

theorem aluFunction_div_of_zero {u v : Int} (zero : v = 0) : aluFunction .div u v = .error (.divideByZero .div) :=
  if_pos zero

theorem aluFunction_div_of_exact {u v q : Int} (nonzero : v ≠ 0) (product : u = v * q) :
    aluFunction .div u v = .ok q := by
  have quotient : fdiv u v = q := by
    rw [product]
    exact Int.mul_fdiv_cancel_left q nonzero
  have remainder : fmod u v = 0 := by
    rw [fmod, quotient, product, sub_self]
  simp [aluFunction, nonzero, quotient, remainder]

theorem aluFunction_div_of_inexact {u v : Int} (nonzero : v ≠ 0) (inexact : ∀ q, u ≠ v * q) :
    aluFunction .div u v = .error (.valueOutOfDomain (.div u v)) := by
  have remainder : fmod u v ≠ 0 := sub_ne_zero.2 (inexact (fdiv u v))
  simp [aluFunction, nonzero, remainder]

theorem aluFunction_mod_of_zero {u v : Int} (zero : v = 0) : aluFunction .mod u v = .error (.divideByZero .mod) :=
  if_pos zero

theorem aluFunction_mod_of_ne_zero {u v : Int} (nonzero : v ≠ 0) : aluFunction .mod u v = .ok (fmod u v) := if_neg nonzero

theorem mul_fdiv_add_fmod (u v : Int) : u = v * fdiv u v + fmod u v := (add_sub_cancel _ u).symm

theorem fmod_eq_intFmod (u v : Int) : fmod u v = Int.fmod u v := (Int.fmod_def u v).symm

theorem fmod_bounds_of_pos (u : Int) {v : Int} (positive : 0 < v) : 0 ≤ fmod u v ∧ fmod u v < v := by
  rw [fmod_eq_intFmod]
  exact ⟨Int.fmod_nonneg_of_pos u positive, Int.fmod_lt_of_pos u positive⟩

/-- A negative divisor is the positive case with both operands negated. -/
theorem fmod_bounds_of_neg (u : Int) {v : Int} (negative : v < 0) : v < fmod u v ∧ fmod u v ≤ 0 := by
  have mirror : fmod (-u) (-v) = -fmod u v := by
    simp only [fmod_eq_intFmod, Int.neg_fmod_neg]
  have bounds := fmod_bounds_of_pos (-u) (neg_pos.2 negative)
  rw [mirror] at bounds
  omega

theorem aluFunction_shl_of_nonneg {u k : Int} (count : 0 ≤ k) : aluFunction .shl u k = .ok (u * 2 ^ k.toNat) :=
  if_neg count.not_gt

theorem aluFunction_shl_of_neg {u k : Int} (count : k < 0) :
    aluFunction .shl u k = .error (.valueOutOfDomain (.shift k)) := if_pos count

theorem aluFunction_shr_of_nonneg {u k : Int} (count : 0 ≤ k) : aluFunction .shr u k = .ok (shiftRight u k) :=
  if_neg count.not_gt

theorem aluFunction_shr_of_neg {u k : Int} (count : k < 0) :
    aluFunction .shr u k = .error (.valueOutOfDomain (.shift k)) := if_pos count

/-- SHR's value is the floor of the quotient (spec/00_scope.md R13). -/
theorem shiftRight_bounds (u k : Int) :
    shiftRight u k * 2 ^ k.toNat ≤ u ∧ u < (shiftRight u k + 1) * 2 ^ k.toNat := by
  have power : (0 : Int) < 2 ^ k.toNat := by positivity
  have floor : shiftRight u k = u / 2 ^ k.toNat := Int.fdiv_eq_ediv_of_nonneg u power.le
  rw [floor]
  exact ⟨Int.ediv_mul_le u power.ne', Int.lt_ediv_add_one_mul_self u power⟩

/-! ### The instructions -/

/-- Settles O25: ADD's byte is its own in an injective map, and its operation is total. -/
theorem addWritesTheSum : Obligations.AddWritesTheSum :=
  ⟨fun _ ra rb hm => decode_byteOf hm .add ra rb,
    fun s => commit_aluBinary_of_total (fun _ _ => rfl) (decodable_of_routedOnRequest_eq_false rfl s.cfg)⟩

/-- Settles O26: MUL's byte is its own in an injective map, and its operation is total. -/
theorem mulWritesTheProduct : Obligations.MulWritesTheProduct :=
  ⟨fun _ ra rb hm => decode_byteOf hm .mul ra rb,
    fun s => commit_aluBinary_of_total (fun _ _ => rfl) (decodable_of_routedOnRequest_eq_false rfl s.cfg)⟩

/-- Settles O27: with the routing the three mnemonics are decodable, and their operations are total. -/
theorem routedSubIncDecResults : Obligations.RoutedSubIncDecResults := by
  intro s ra rb ha routed
  have decodable := decodable_of_routeAllAlu routed
  exact ⟨fun hb => commit_aluBinary_of_ok (decodable .sub) ha hb rfl, commit_aluUnary_of_ok (decodable .inc) ha rfl,
    commit_aluUnary_of_ok (decodable .dec) ha rfl⟩

/-- Settles O28: the three outcomes of DIV's operation. -/
theorem routedDivIsExactOrFaults : Obligations.RoutedDivIsExactOrFaults := by
  intro s ra rb ha hb routed u v
  have decodable := decodable_of_routeAllAlu routed .div
  refine ⟨fun zero => ?_, fun q nonzero quotient => ?_, fun nonzero inexact => ?_⟩
  · exact commit_aluBinary_of_error decodable ha hb (aluFunction_div_of_zero zero)
  · exact commit_aluBinary_of_ok decodable ha hb (aluFunction_div_of_exact nonzero quotient)
  · exact commit_aluBinary_of_error decodable ha hb (aluFunction_div_of_inexact nonzero inexact)

/-- Settles O29: the floor quotient and remainder are the two numbers, with the remainder's bounds for each sign. -/
theorem modWritesTheFloorRemainder : Obligations.ModWritesTheFloorRemainder := by
  intro s ra rb ha hb u v
  have decodable := decodable_of_routedOnRequest_eq_false (op := .mod) rfl s.cfg
  refine ⟨fun zero => ?_, fun nonzero => ?_⟩
  · exact commit_aluBinary_of_error decodable ha hb (aluFunction_mod_of_zero zero)
  · exact ⟨fdiv u v, fmod u v, mul_fdiv_add_fmod u v, fmod_bounds_of_pos u, fmod_bounds_of_neg u,
      commit_aluBinary_of_ok decodable ha hb (aluFunction_mod_of_ne_zero nonzero)⟩

/-- Settles O30: the operations are the bitwise operators, whose bits are known. -/
theorem bitwiseInstructionResults : Obligations.BitwiseInstructionResults := by
  intro s ra rb ha hb u v
  have decodable {op : Opcode} (always : op.routedOnRequest = false) : s.cfg.decodable op = true :=
    decodable_of_routedOnRequest_eq_false always s.cfg
  refine ⟨⟨land u v, ?_, fun i => bitOf_land i u v⟩, ⟨lor u v, ?_, fun i => bitOf_lor i u v⟩,
    ⟨lxor u v, ?_, fun i => bitOf_lxor i u v⟩, ?_⟩
  · exact commit_aluBinary_of_ok (op := .and) (decodable rfl) ha hb rfl
  · exact commit_aluBinary_of_ok (op := .or) (decodable rfl) ha hb rfl
  · exact commit_aluBinary_of_ok (op := .xor) (decodable rfl) ha hb rfl
  · exact commit_aluUnary_of_ok (op := .not) (decodable rfl) ha rfl

/-- Settles O31: each shift by the sign of its count. -/
theorem shiftResults : Obligations.ShiftResults := by
  intro s ra rb ha hb u k
  have shl := decodable_of_routedOnRequest_eq_false (op := .shl) rfl s.cfg
  refine ⟨fun count => ?_, fun count => ?_, fun routed count => ?_, fun routed count => ?_⟩
  · exact commit_aluBinary_of_ok shl ha hb (aluFunction_shl_of_nonneg count)
  · exact commit_aluBinary_of_error shl ha hb (aluFunction_shl_of_neg count)
  · obtain ⟨low, high⟩ := shiftRight_bounds u k
    exact ⟨shiftRight u k, low, high,
      commit_aluBinary_of_ok (decodable_of_routeAllAlu routed .shr) ha hb (aluFunction_shr_of_nonneg count)⟩
  · exact commit_aluBinary_of_error (decodable_of_routeAllAlu routed .shr) ha hb (aluFunction_shr_of_neg count)

/-- Settles O32: by default none of the five mnemonics is decodable. -/
theorem unroutedOperationsAreIllegal : Obligations.UnroutedOperationsAreIllegal := by
  intro s ra rb unrouted
  have undecodable {op : Opcode} (request : op.routedOnRequest = true) : ¬ s.cfg.decodable op = true :=
    not_decodable_of_routedOnRequest unrouted request
  exact ⟨commit_aluBinary_of_not_decodable (op := .sub) (undecodable rfl),
    commit_aluBinary_of_not_decodable (op := .div) (undecodable rfl),
    commit_aluBinary_of_not_decodable (op := .shr) (undecodable rfl),
    commit_aluUnary_of_not_decodable (op := .inc) (undecodable rfl),
    commit_aluUnary_of_not_decodable (op := .dec) (undecodable rfl)⟩

/-- An instruction with an ALU destination completes by writing that register and moving the pc. -/
theorem Completed.eq_setX_advance {s t : State} {i : Instr} {ra : Byte} (h : Completed s i t)
    (destination : aluDestination? i = some ra) :
    ∃ (a : Fin 8) (v : Int), ra.toNat = a.val ∧ t = (s.setX a v).advance 3 := by
  cases h
  case alu a v field named =>
    obtain rfl := Option.some.inj (named.symm.trans destination)
    exact ⟨a, v, field, rfl⟩
  all_goals cases destination

/-- Settles O33: a completed ALU instruction is one register write and the pc's move, a faulting one the fault's entry. -/
theorem aluInstructionsWriteOnlyTheirDestination : Obligations.AluInstructionsWriteOnlyTheirDestination := by
  intro i ra s t destination h
  obtain done | ⟨k, rfl⟩ := exec_cases h
  · obtain ⟨a, v, field, rfl⟩ := done.eq_setX_advance destination
    refine ⟨fun _ => rfl, rfl, rfl, rfl, rfl, fun j other => ?_, .inl ⟨rfl, rfl, rfl⟩⟩
    have ne : j ≠ a := fun same => other (field ▸ congrArg Fin.val same)
    rw [State.advance_x, State.setX_x, if_neg ne]
  · exact ⟨State.raise_readByte s k, rfl, rfl, rfl, rfl, fun j _ => State.raise_x s k j, .inr ⟨k, rfl⟩⟩

end Sys2Proof.Machine
end

section
/-! PROOF of O56. `ROUTE_ALL_ALU` is read by the check of a mnemonic alone, and that check answers the same for every mnemonic
outside the five. So changing it before such an instruction is changing it after. -/

namespace Sys2Proof.Machine

section
variable (routeAll : Bool) (s : State)

/-- A step's end keeps the routing in the completed state, and in the state a fault is entered from. -/
theorem commit_withRouting {r r' : Except FaultCause State} (h : r' = r.map (State.withRouting routeAll)) :
    commit (s.withRouting routeAll) r' = mapNext (State.withRouting routeAll) (commit s r) := by
  subst h
  cases r <;> rfl

/-! ### The shared operations do not read the routing -/

theorem memWrite_withRouting (a v : Int) :
    (s.withRouting routeAll).memWrite a v = (s.memWrite a v).map (State.withRouting routeAll) := by
  unfold State.memWrite
  split_ifs <;> rfl

theorem popInto_withRouting (i : Fin 8) :
    (s.withRouting routeAll).popInto i = (s.popInto i).map (State.withRouting routeAll) :=
  bind_eq_map (x := s.memRead s.sp) fun _ => rfl

theorem aluApply_withRouting (op : Opcode) (i j : Fin 8) :
    (s.withRouting routeAll).aluApply op i j = (s.aluApply op i j).map (State.withRouting routeAll) :=
  bind_eq_map (x := aluFunction op (s.x i) (s.x j)) fun _ => rfl

/-- A mnemonic outside the five is decodable under every routing. -/
theorem requireDecodable_withRouting {op : Opcode} (always : op.routedOnRequest = false) :
    (s.withRouting routeAll).requireDecodable op = s.requireDecodable op := by
  rw [requireDecodable_of (decodable_of_routedOnRequest_eq_false always _),
    requireDecodable_of (decodable_of_routedOnRequest_eq_false always _)]

theorem aluBinary_withRouting {op : Opcode} (always : op.routedOnRequest = false) (ra rb : Byte) :
    aluBinary op ra rb (s.withRouting routeAll) = (aluBinary op ra rb s).map (State.withRouting routeAll) := by
  rw [aluBinary, requireDecodable_withRouting routeAll s always]
  exact bind_eq_map fun _ => bind_eq_map fun i => bind_eq_map fun j =>
    bind_eq_map_of_map (aluApply_withRouting routeAll s op i j) fun _ => rfl

theorem aluUnary_withRouting {op : Opcode} (always : op.routedOnRequest = false) (ra : Byte) :
    aluUnary op ra (s.withRouting routeAll) = (aluUnary op ra s).map (State.withRouting routeAll) := by
  rw [aluUnary, requireDecodable_withRouting routeAll s always]
  exact bind_eq_map fun _ => bind_eq_map fun i => bind_eq_map_of_map (aluApply_withRouting routeAll s op i i) fun _ => rfl

/-! ### The instructions with a sequence of their own -/

theorem execCall_withRouting (ra : Byte) :
    execCall ra (s.withRouting routeAll) = mapNext (State.withRouting routeAll) (execCall ra s) :=
  commit_withRouting routeAll s (bind_eq_map fun _ =>
    bind_eq_map_of_map (memWrite_withRouting routeAll (s.setLatch (s.pc + 2)).decSp s.pushAddress (s.pc + 2)) fun _ => rfl)

theorem retFromLatch_withRouting (ra : Byte) :
    retFromLatch ra (s.withRouting routeAll) = (retFromLatch ra s).map (State.withRouting routeAll) :=
  bind_eq_map fun i => bind_eq_map_of_map (popInto_withRouting routeAll s i) fun
    | { latch := none, .. } => rfl
    | { latch := some _, .. } => rfl

theorem retFromStack_withRouting :
    retFromStack (s.withRouting routeAll) = (retFromStack s).map (State.withRouting routeAll) :=
  bind_eq_map (x := s.memRead s.sp) fun _ => rfl

/-- RET reads the configuration's other switch, which the change leaves alone. -/
theorem execRet_withRouting (ra : Byte) :
    execRet ra (s.withRouting routeAll) = mapNext (State.withRouting routeAll) (execRet ra s) := by
  refine commit_withRouting routeAll s ?_
  have switch : (s.withRouting routeAll).cfg.retFromStack = s.cfg.retFromStack := rfl
  rw [switch]
  split
  · exact retFromStack_withRouting routeAll s
  · exact retFromLatch_withRouting routeAll s ra

end

/-- Settles O56: each instruction outside the five is a sequence of operations that the routing does not influence. -/
theorem routingInfluencesOnlyTheFive : Obligations.RoutingInfluencesOnlyTheFive := by
  intro i s routeAll outside
  cases i
  case sub | div | inc | dec | shr => cases outside _ rfl
  case hlt | illegal => rfl
  case prn | jmp | jeq | jne | ldi => exact commit_withRouting routeAll s (bind_eq_map fun _ => rfl)
  case cmp => exact commit_withRouting routeAll s (bind_eq_map fun _ => bind_eq_map fun _ => rfl)
  case ret ra => exact execRet_withRouting routeAll s ra
  case call ra => exact execCall_withRouting routeAll s ra
  case push =>
    exact commit_withRouting routeAll s (bind_eq_map fun a =>
      bind_eq_map_of_map (memWrite_withRouting routeAll s.decSp s.pushAddress (s.decSp.x a)) fun _ => rfl)
  case pop =>
    exact commit_withRouting routeAll s (bind_eq_map fun a =>
      bind_eq_map_of_map (popInto_withRouting routeAll s a) fun _ => rfl)
  case not => exact commit_withRouting routeAll s (aluUnary_withRouting routeAll s (outside _ rfl) _)
  all_goals exact commit_withRouting routeAll s (aluBinary_withRouting routeAll s (outside _ rfl) _ _)

end Sys2Proof.Machine
end

section
/-! PROOF of O34, O35, O36, O37, O38: the load immediate, output and stack instructions. Each has one register field, checked
first. PUSH is then its store, and POP its read, from the cell the stack pointer names. A PUSH followed by a POP is the
stated effect of each in turn. -/

namespace Sys2Proof.Machine

/-! ### An instruction with one register field -/

section
variable {s : State} {ra : Byte} (f : Fin 8 → Except FaultCause State)

theorem commit_regIndex_bind_of (ha : isRegIndex ra) : commit s (regIndex ra >>= f) = commit s (f (regOf ra ha)) := by
  rw [regIndex_of_lt ha]
  rfl

theorem commit_regIndex_bind_of_not (bad : ¬ isRegIndex ra) :
    commit s (regIndex ra >>= f) = .next (s.raise (registerFault ra)) := by
  rw [regIndex_of_not_lt bad]
  rfl

end

/-- Settles O34: LDI's byte is its own in an injective map, and its field check is its only one. -/
theorem ldiWritesTheImmediate : Obligations.LdiWritesTheImmediate :=
  ⟨fun _ ra imm hm => decode_byteOf hm .ldi ra imm,
    fun _ _ _ => ⟨fun ha => commit_regIndex_bind_of _ ha, fun bad => commit_regIndex_bind_of_not _ bad⟩⟩

/-- Settles O35: PRN's byte is its own in an injective map, and its field check is its only one. -/
theorem prnEmitsTheRegister : Obligations.PrnEmitsTheRegister :=
  ⟨fun _ ra b hm => decode_byteOf hm .prn ra b,
    fun _ _ => ⟨fun ha => commit_regIndex_bind_of _ ha, fun bad => commit_regIndex_bind_of_not _ bad⟩⟩

/-! ### PUSH and POP, by what their memory access answers -/

section
variable {s : State} {ra : Byte} (ha : isRegIndex ra)
include ha

theorem exec_push_of_ok {u : State} (store : s.decSp.memWrite s.pushAddress (s.decSp.x (regOf ra ha)) = .ok u) :
    exec (.push ra) s = .next (u.advance 2) := by
  refine (commit_regIndex_bind_of _ ha).trans ?_
  rw [store]
  rfl

/-- The fault is entered from the state before the decrement. -/
theorem exec_push_of_error {k : FaultCause}
    (fault : s.decSp.memWrite s.pushAddress (s.decSp.x (regOf ra ha)) = .error k) :
    exec (.push ra) s = .next (s.raise k) := by
  refine (commit_regIndex_bind_of _ ha).trans ?_
  rw [fault]
  rfl

/-- The register is written before the increment (spec/41_transfer.md R74). -/
theorem exec_pop_of_inMemory (address : inMemory (s.x 7)) :
    exec (.pop ra) s = .next ((s.setX (regOf ra ha) (zext8 (s.readByte (s.x 7).toNat))).incSp.advance 2) := by
  refine (commit_regIndex_bind_of _ ha).trans ?_
  rw [popInto_eq_ok.2 ⟨address, rfl⟩]
  rfl

theorem exec_pop_of_not_inMemory (outside : ¬ inMemory (s.x 7)) :
    exec (.pop ra) s = .next (s.raise (memoryFault (s.x 7))) := by
  refine (commit_regIndex_bind_of _ ha).trans ?_
  rw [popInto_eq_error.2 ⟨outside, rfl⟩]
  rfl

end

theorem Regs.set_set_same (r : Regs) (i : Fin 8) (v w : Int) : (r.set i v).set i w = r.set i w :=
  Regs.ext_get fun j => by by_cases h : j = i <;> simp [h]

theorem incSp_setX_of_ne {i : Fin 8} (other : i ≠ 7) (s : State) (v : Int) :
    (s.setX i v).incSp = { s with regs := (s.regs.set i v).set 7 (s.x 7 + 1) } := by
  have kept : (s.setX i v).sp = s.x 7 := by rw [State.sp_eq, State.setX_x, if_neg other.symm]
  rw [State.incSp, kept]
  rfl

/-- The increment takes the stack pointer just written, and its result is what stays. -/
theorem incSp_setX_seven (s : State) (v : Int) : (s.setX 7 v).incSp = { s with regs := s.regs.set 7 (v + 1) } := by
  have written : (s.setX 7 v).sp = v := by rw [State.sp_eq, State.setX_x, if_pos rfl]
  rw [State.incSp, written, ← Regs.set_set_same s.regs 7 v]
  rfl

/-- Settles O36: the store's frame and its read-back, or the first of its two faults. -/
theorem pushStoresAtTheDecrementedPointer : Obligations.PushStoresAtTheDecrementedPointer := by
  intro s ra ha v
  have value : s.decSp.x (regOf ra ha) = v := State.decSp_x s (regOf ra ha)
  refine ⟨fun address byte => ?_, fun outside => ?_, fun address bad => ?_⟩
  · have store := memWrite_of (s := s.decSp) address (value.symm ▸ byte)
    refine ⟨_, exec_push_of_ok ha store, rfl,
      fun addr ne => memWrite_sameMemoryOutside store addr ne, fun hm => ?_⟩
    exact (memWrite_readBack (s := s.decSp) hm store).trans value
  · exact exec_push_of_error ha (memWrite_of_not_inMemory outside)
  · rw [← value] at bad ⊢
    exact exec_push_of_error ha (memWrite_of_not_byte address bad)

/-- Settles O37: the read in memory, by whether the register is the stack pointer itself, and the read outside. -/
theorem popReadsThenIncrements : Obligations.PopReadsThenIncrements := by
  intro s ra ha v
  refine ⟨fun address other => ?_, fun address same => ?_, exec_pop_of_not_inMemory ha⟩
  · rw [exec_pop_of_inMemory ha address, incSp_setX_of_ne other]
    rfl
  · rw [exec_pop_of_inMemory ha address, same, incSp_setX_seven]
    rfl

/-- Settles O38: POP reads at the address PUSH stored to, and puts back the register and the stack pointer. -/
theorem pushThenPopRestoresEveryRegister : Obligations.PushThenPopRestoresEveryRegister := by
  intro s ra ha hm address byte
  obtain ⟨t, push, frame, -, stored⟩ := (pushStoresAtTheDecrementedPointer s ra ha).1 address byte
  have decremented : ∀ j, t.x j = if j = 7 then s.x 7 - 1 else s.x j := fun j => by
    rw [frame]
    exact State.decSp_x s j
  have pointer : t.x 7 = s.x 7 - 1 := decremented 7
  have pop := exec_pop_of_inMemory (s := t) ha (pointer.symm ▸ address)
  rw [pointer, stored hm] at pop
  refine ⟨t, _, push, pop, fun j => ?_, ?_⟩
  · simp only [State.advance_x, State.incSp_x, State.setX_x, decremented]
    by_cases pointed : j = 7
    · by_cases same : regOf ra ha = 7
      · simp [pointed, same]
      · simp [pointed, Ne.symm same]
    · by_cases named : j = regOf ra ha
      · simp [pointed, ← named]
      · simp [pointed, named]
  · rw [frame]
    exact add_assoc s.pc 2 2

end Sys2Proof.Machine
end

section
/-! PROOF of O40, O41, O42, O43, O44, O45, O46, O47: the calls, the jumps, the compare and the halt. CALL is its store and
RET its read, each at the cell the stack pointer names, and a CALL followed by a RET is the stated effect of each in turn. A
jump is its field check and its target, and a step that answers its own state is a run that hangs. -/

namespace Sys2Proof.Machine

/-! ### CALL and RET, by what their memory access answers -/

section
variable {s : State} {ra : Byte}

theorem exec_call_of (ha : isRegIndex ra) :
    exec (.call ra) s =
      commit s ((s.setLatch (s.pc + 2)).decSp.memWrite s.pushAddress (s.pc + 2) >>=
        fun u => .ok (u.setPc (u.x (regOf ra ha)))) :=
  commit_regIndex_bind_of _ ha

theorem exec_call_of_ok (ha : isRegIndex ra) {u : State}
    (store : (s.setLatch (s.pc + 2)).decSp.memWrite s.pushAddress (s.pc + 2) = .ok u) :
    exec (.call ra) s = .next (u.setPc (u.x (regOf ra ha))) := by
  rw [exec_call_of ha, store, bind_ok, commit_ok]

theorem exec_call_of_not_inMemory (ha : isRegIndex ra) (outside : ¬ inMemory s.pushAddress) :
    exec (.call ra) s = .next (s.raise (memoryFault (s.x 7 - 1))) := by
  rw [exec_call_of ha, memWrite_of_not_inMemory outside]
  rfl

theorem exec_ret_of_latch (latched : s.cfg.retFromStack = false) : exec (.ret ra) s = commit s (retFromLatch ra s) := by
  rw [exec, execRet, latched]
  rfl

theorem exec_ret_of_stack (stacked : s.cfg.retFromStack = true) : exec (.ret ra) s = commit s (retFromStack s) := by
  rw [exec, execRet, if_pos stacked]

theorem commit_retFromLatch_of_some (ha : isRegIndex ra) (address : inMemory (s.x 7)) {target : Int}
    (latch : s.latch = some target) :
    commit s (retFromLatch ra s) =
      .next ((s.setX (regOf ra ha) (zext8 (s.readByte (s.x 7).toNat))).incSp.setPc target) := by
  refine (commit_regIndex_bind_of _ ha).trans ?_
  rw [popInto_eq_ok.2 ⟨address, rfl⟩, bind_ok, State.incSp_latch, State.setX_latch, latch]
  rfl

/-- The fault is entered from the state before the pop. -/
theorem commit_retFromLatch_of_none (ha : isRegIndex ra) (address : inMemory (s.x 7)) (latch : s.latch = none) :
    commit s (retFromLatch ra s) = .next (s.raise .emptyReturnLatch) := by
  refine (commit_regIndex_bind_of _ ha).trans ?_
  rw [popInto_eq_ok.2 ⟨address, rfl⟩, bind_ok, State.incSp_latch, State.setX_latch, latch]
  rfl

/-- The pop's own check comes before that of the latch. -/
theorem commit_retFromLatch_of_not_inMemory (ha : isRegIndex ra) (outside : ¬ inMemory (s.x 7)) :
    commit s (retFromLatch ra s) = .next (s.raise (memoryFault (s.x 7))) := by
  refine (commit_regIndex_bind_of _ ha).trans ?_
  rw [popInto_eq_error.2 ⟨outside, rfl⟩]
  rfl

end

/-- Settles O40: with pc in 0..253 the return address is a byte, so only the address can fault. -/
theorem callSavesTheReturnAddressTwice : Obligations.CallSavesTheReturnAddressTwice := by
  intro s ra ha
  refine ⟨fun ⟨low, high⟩ address => ?_, exec_call_of_not_inMemory ha⟩
  have byte : isByteValue (s.pc + 2) := ⟨by omega, by omega⟩
  have store := memWrite_of (s := (s.setLatch (s.pc + 2)).decSp) address byte
  have target : s.decSp.x (regOf ra ha) = if regOf ra ha = 7 then s.x 7 - 1 else s.x (regOf ra ha) :=
    State.decSp_x s (regOf ra ha)
  have stored (hm : s.mem.wf) := memWrite_readBack (s := (s.setLatch (s.pc + 2)).decSp) hm store
  refine ⟨_, exec_call_of_ok ha store, ?_, fun addr ne => memWrite_sameMemoryOutside store addr ne, stored⟩
  rw [← target]
  rfl

/-- Settles O41: the pop in memory by the latch it finds and by whether the register is the stack pointer itself, and the
pop outside. -/
theorem retTakesThePcFromTheLatch : Obligations.RetTakesThePcFromTheLatch := by
  intro s ra ha latched v
  rw [exec_ret_of_latch latched]
  refine ⟨fun target address latch other => ?_, fun target address latch same => ?_,
    commit_retFromLatch_of_not_inMemory ha, commit_retFromLatch_of_none ha⟩
  · rw [commit_retFromLatch_of_some ha address latch, incSp_setX_of_ne other]
    rfl
  · rw [commit_retFromLatch_of_some ha address latch, same, incSp_setX_seven]
    rfl

/-- Settles O42: the read of the popped byte is its only check. -/
theorem retFromStackPopsThePc : Obligations.RetFromStackPopsThePc := by
  intro s ra stacked
  rw [exec_ret_of_stack stacked, retFromStack, State.sp_eq]
  refine ⟨fun address => ?_, fun outside => ?_⟩
  · rw [memRead_of address]
    rfl
  · rw [memRead_of_not outside]
    rfl

/-- Settles O43: RET pops at the address CALL stored to, and finds its return address both there and in the latch. -/
theorem callThenRetReturns : Obligations.CallThenRetReturns := by
  intro s ra rb ha hb hm range address
  obtain ⟨t, call, frame, -, stored⟩ := (callSavesTheReturnAddressTwice s ra ha).1 range address
  have config : t.cfg = s.cfg := by rw [frame]
  have latch : t.latch = some (s.pc + 2) := by rw [frame]
  have pointer : t.x 7 = s.x 7 - 1 := (congrArg (State.x · 7) frame).trans (State.decSp_x s 7)
  have restored : t.x 7 + 1 = s.x 7 := by omega
  have popped : zext8 (t.readByte (t.x 7).toNat) = s.pc + 2 := pointer.symm ▸ stored hm
  have inside : inMemory (t.x 7) := pointer.symm ▸ address
  cases mode : s.cfg.retFromStack with
  | true =>
    have ret := (retFromStackPopsThePc t rb (config ▸ mode)).1 inside
    exact ⟨t, _, call, ret, popped, fun _ => (State.incSp_x t 7).trans restored,
      fun off => absurd off.symm Bool.false_ne_true⟩
  | false =>
    obtain ⟨retOther, retSame, -, -⟩ := retTakesThePcFromTheLatch t rb hb (config ▸ mode)
    by_cases same : regOf rb hb = 7
    · exact ⟨t, _, call, retSame _ inside latch same, rfl,
        fun kept => absurd same (kept.resolve_left Bool.false_ne_true), fun _ other => absurd same other⟩
    · refine ⟨t, _, call, retOther _ inside latch same, rfl, fun _ => ?_, fun _ _ => ?_⟩
      · exact (Regs.get_set _ 7 7 _).trans ((if_pos rfl).trans restored)
      · refine (Regs.get_set _ 7 _ _).trans ((if_neg same).trans ?_)
        exact (Regs.get_set _ _ _ _).trans ((if_pos rfl).trans popped)

/-! ### The jumps -/

/-- A step that answers its own state is a hang (spec/70_reset_and_hazards.md R108). -/
theorem run_of_step_self {s : State} (same : step s = .next s) (n : Nat) : run n s = s := by
  induction n with
  | zero => rfl
  | succ n ih => simp [run, same, ih]

theorem step_of_fetches {s : State} {w : Window} (h : Fetches s w) : step s = exec (decode s.cfg.opcodeMap w) s := by
  simp [step, h.running, fetch_of_fetches h]

theorem exec_jmp_of {s : State} {ra : Byte} (ha : isRegIndex ra) :
    exec (.jmp ra) s = .next { s with pc := s.x (regOf ra ha) } := commit_regIndex_bind_of _ ha

/-- Settles O44: a target out of range is the next fetch's fault, and a JMP to its own address is a step that answers its own
state. -/
theorem jmpLoadsThePcUnchecked : Obligations.JmpLoadsThePcUnchecked := by
  intro s ra
  refine ⟨fun ha => ?_, commit_regIndex_bind_of_not _⟩
  intro target
  have fetchFault (running : s.running = true) := fetchOutOfRangeFaults { s with pc := target } running
  refine ⟨exec_jmp_of ha, fun running => (fetchFault running).1, fun running => (fetchFault running).2, ?_⟩
  intro w fetched decoded self n
  have same : step s = .next s := by
    rw [step_of_fetches fetched, decoded, exec_jmp_of ha]
    exact congrArg (fun pc => Host.Outcome.next { s with pc := pc }) self
  have hang := run_of_step_self same n
  exact ⟨hang, by rw [hang, State.status, if_pos fetched.running]⟩

theorem isEqualExactly_eq_true {fl : Byte} : isEqualExactly fl = true ↔ fl = 0b001 := by
  simp [isEqualExactly, flEqual]

/-- Settles O46: both jumps check their field first and then test the whole FL byte. -/
theorem conditionalJumpsMatchFlExactly : Obligations.ConditionalJumpsMatchFlExactly := by
  intro s ra
  refine ⟨fun ha => ?_, fun bad => ⟨commit_regIndex_bind_of_not _ bad, commit_regIndex_bind_of_not _ bad⟩⟩
  have jeq : exec (.jeq ra) s = .next (s.setPc (if isEqualExactly s.fl then s.x (regOf ra ha) else s.pc + 2)) :=
    commit_regIndex_bind_of _ ha
  have jne : exec (.jne ra) s = .next (s.setPc (if isEqualExactly s.fl then s.pc + 2 else s.x (regOf ra ha))) :=
    commit_regIndex_bind_of _ ha
  rw [jeq, jne]
  refine ⟨fun equal => ?_, fun other => ?_⟩
  · rw [if_pos (isEqualExactly_eq_true.2 equal), if_pos (isEqualExactly_eq_true.2 equal)]
    exact ⟨rfl, rfl⟩
  · rw [if_neg (isEqualExactly_eq_true.not.2 other), if_neg (isEqualExactly_eq_true.not.2 other)]
    exact ⟨rfl, rfl⟩

/-! ### CMP and HLT -/

theorem compareFlags_of_lt {u v : Int} (less : u < v) : compareFlags u v = 0b100 := if_pos less

theorem compareFlags_of_eq {u v : Int} (equal : u = v) : compareFlags u v = 0b001 := by
  rw [compareFlags, if_neg equal.not_lt, if_pos equal, flEqual]

theorem compareFlags_of_gt {u v : Int} (greater : v < u) : compareFlags u v = 0b010 := by
  rw [compareFlags, if_neg greater.not_gt, if_neg greater.ne', flGreater]

/-- Settles O45: the two field checks, A before B, and then the three orders of the operands. -/
theorem cmpSetsExactlyOneFlag : Obligations.CmpSetsExactlyOneFlag := by
  refine ⟨fun m ra rb hm => decode_byteOf hm .cmp ra rb, fun s ra rb => ?_⟩
  refine ⟨fun ha hb => ?_, fun badA => ?_, fun ha badB => ?_⟩
  · have cmp : exec (.cmp ra rb) s =
        .next { s with fl := compareFlags (s.x (regOf ra ha)) (s.x (regOf rb hb)), pc := s.pc + 3 } :=
      (commit_regIndex_bind_of _ ha).trans (commit_regIndex_bind_of _ hb)
    rw [cmp]
    exact ⟨fun less => by rw [compareFlags_of_lt less], fun equal => by rw [compareFlags_of_eq equal],
      fun greater => by rw [compareFlags_of_gt greater]⟩
  · exact commit_regIndex_bind_of_not _ badA
  · exact (commit_regIndex_bind_of _ ha).trans (commit_regIndex_bind_of_not _ badB)

/-- Settles O47: HLT has no field and no check. -/
theorem hltStopsWithoutAFault : Obligations.HltStopsWithoutAFault :=
  fun s => commit_ok s (s.halt.advance 1)

end Sys2Proof.Machine
end

section
/-! PROOF of O7, O9, O10, O11. Every step is the commit of a result that keeps FAULT or is a fault other than
UnsupportedOperation (`step_eq_commit`), so it answers a next state, and its record is one that `State.raise` has just
written. A byte of no decodable mnemonic is ILLEGAL's, or that of one of the five the configuration does not route. -/

namespace Sys2Proof.Machine

/-! ### IllegalInstruction at decode -/

/-- The only mnemonics that are ever undecodable are the five of spec/40_alu.md R53. -/
theorem exec_ofOpcode_of_not_decodable {s : State} {op : Opcode} (undecodable : ¬ s.cfg.decodable op = true)
    (a b : Byte) :
    exec (.ofOpcode op a b) s = .next (s.raise (.illegalInstruction (s.cfg.opcodeMap.byteOf op))) := by
  cases op
  case sub | div | shr => exact commit_aluBinary_of_not_decodable undecodable
  case inc | dec => exact commit_aluUnary_of_not_decodable undecodable
  all_goals exact absurd (decodable_of_routedOnRequest_eq_false rfl s.cfg) undecodable

/-- Settles O7: the byte is looked up as an undecodable mnemonic, or as none. -/
theorem undecodableByteRaisesIllegalInstruction : Obligations.UndecodableByteRaisesIllegalInstruction := by
  intro s w fetched unnamed
  rw [step_of_fetches fetched]
  cases found : s.cfg.opcodeMap.lookup w.ir with
  | some op =>
    have named : s.cfg.opcodeMap.byteOf op = w.ir := OpcodeMap.byteOf_of_lookup found
    rw [decode_of_lookup found, ← named]
    exact exec_ofOpcode_of_not_decodable (fun decodable => unnamed op decodable named) w.a w.b
  | none =>
    rw [decode_of_lookup_none found]
    exact exec_illegal w.ir s

/-! ### Results without UnsupportedOperation -/

/-- A sequence of checks and writes ends in a value with the property `Q`, or in a fault other than
UnsupportedOperation. -/
def SupportedResult {α : Type} (Q : α → Prop) : Except FaultCause α → Prop
  | .ok a => Q a
  | .error k => ∀ op, k ≠ .unsupportedOperation op

@[simp] theorem supportedResult_ok {α : Type} {Q : α → Prop} {a : α} : SupportedResult Q (.ok a) ↔ Q a := Iff.rfl

@[simp] theorem supportedResult_error {α : Type} {Q : α → Prop} {k : FaultCause} :
    SupportedResult Q (.error k) ↔ ∀ op, k ≠ .unsupportedOperation op := Iff.rfl

theorem SupportedResult.bind {α β : Type} {Q : α → Prop} {R : β → Prop} {x : Except FaultCause α}
    {f : α → Except FaultCause β} (first : SupportedResult Q x) (rest : ∀ a, Q a → SupportedResult R (f a)) :
    SupportedResult R (x >>= f) := by
  cases x with
  | ok a => exact rest a first
  | error k => exact first

/-- A check whose value does not matter for what follows. -/
theorem SupportedResult.check {α β : Type} {R : β → Prop} {x : Except FaultCause α} {f : α → Except FaultCause β}
    (first : SupportedResult (fun _ => True) x) (rest : ∀ a, SupportedResult R (f a)) : SupportedResult R (x >>= f) :=
  first.bind fun a _ => rest a

theorem regIndex_supported (n : Byte) : SupportedResult (fun _ => True) (regIndex n) := by
  unfold regIndex
  split <;> simp

theorem requireDecodable_supported (s : State) (op : Opcode) :
    SupportedResult (fun _ => True) (s.requireDecodable op) := by
  unfold State.requireDecodable
  split <;> simp

theorem memRead_supported (s : State) (addr : Int) : SupportedResult (fun _ => True) (s.memRead addr) := by
  unfold State.memRead
  split <;> simp

theorem fetch_supported (s : State) : SupportedResult (fun _ => True) s.fetch :=
  (memRead_supported s _).check fun _ => (memRead_supported s _).check fun _ => (memRead_supported s _).check fun _ =>
    trivial

theorem memWrite_supported (s : State) (addr v : Int) :
    SupportedResult (fun t => t.fault = s.fault) (s.memWrite addr v) := by
  unfold State.memWrite
  split_ifs <;> simp

theorem popInto_supported (s : State) (i : Fin 8) : SupportedResult (fun t => t.fault = s.fault) (s.popInto i) :=
  (memRead_supported s _).check fun _ => rfl

/-! ### The ALU -/

/-- The opcodes that are no key of the ALU's table (spec/40_alu.md R54). -/
def outsideAluTable : List Opcode := [.hlt, .ret, .push, .pop, .prn, .call, .jmp, .jeq, .jne, .ldi]

theorem aluFunction_supported {op : Opcode} (key : op ∉ outsideAluTable) (u v : Int) :
    SupportedResult (fun _ => True) (aluFunction op u v) := by
  cases h : aluFunction op u v with
  | ok _ => trivial
  | error k =>
    obtain ⟨-, -, rfl⟩ | ⟨-, -, -, rfl⟩ | ⟨-, -, rfl⟩ | ⟨outside, -⟩ := aluFunction_eq_error h
    · simp
    · simp
    · simp
    · exact absurd outside key

theorem aluApply_supported {op : Opcode} (key : op ∉ outsideAluTable) (s : State) (a b : Fin 8) :
    SupportedResult (fun t => t.fault = s.fault) (s.aluApply op a b) :=
  (aluFunction_supported key _ _).check fun _ => rfl

theorem aluBinary_supported {op : Opcode} (key : op ∉ outsideAluTable) (ra rb : Byte) (s : State) :
    SupportedResult (fun t => t.fault = s.fault) (aluBinary op ra rb s) :=
  (requireDecodable_supported s op).check fun _ => (regIndex_supported ra).check fun a =>
    (regIndex_supported rb).check fun b => (aluApply_supported key s a b).bind fun _ kept => kept

theorem aluUnary_supported {op : Opcode} (key : op ∉ outsideAluTable) (ra : Byte) (s : State) :
    SupportedResult (fun t => t.fault = s.fault) (aluUnary op ra s) :=
  (requireDecodable_supported s op).check fun _ => (regIndex_supported ra).check fun a =>
    (aluApply_supported key s a a).bind fun _ kept => kept

/-! ### One instruction, one step -/

theorem retFromLatch_supported (ra : Byte) (s : State) :
    SupportedResult (fun t => t.fault = s.fault) (retFromLatch ra s) :=
  (regIndex_supported ra).check fun a => (popInto_supported s a).bind fun u kept => by
    cases u.latch with
    | none => simp
    | some _ => exact kept

theorem retFromStack_supported (s : State) : SupportedResult (fun t => t.fault = s.fault) (retFromStack s) :=
  (memRead_supported s _).check fun _ => rfl

/-- Every meaning is the commit of a result that keeps FAULT or is a fault other than UnsupportedOperation. -/
theorem exec_eq_commit (i : Instr) (s : State) :
    ∃ r, exec i s = commit s r ∧ SupportedResult (fun t => t.fault = s.fault) r := by
  cases i
  case hlt => exact ⟨.ok (s.halt.advance 1), rfl, rfl⟩
  case illegal ir => exact ⟨.error (.illegalInstruction ir), rfl, by simp⟩
  case ret ra =>
    refine ⟨_, rfl, ?_⟩
    split
    · exact retFromStack_supported s
    · exact retFromLatch_supported ra s
  case push | call =>
    exact ⟨_, rfl, (regIndex_supported _).check fun _ => (memWrite_supported _ _ _).bind fun _ kept => kept⟩
  case pop => exact ⟨_, rfl, (regIndex_supported _).check fun a => (popInto_supported s a).bind fun _ kept => kept⟩
  case prn | jmp | jeq | jne | ldi => exact ⟨_, rfl, (regIndex_supported _).check fun _ => rfl⟩
  case cmp => exact ⟨_, rfl, (regIndex_supported _).check fun _ => (regIndex_supported _).check fun _ => rfl⟩
  case inc | dec | not => exact ⟨_, rfl, aluUnary_supported (by decide) _ s⟩
  all_goals exact ⟨_, rfl, aluBinary_supported (by decide) _ _ s⟩

/-- The same of a step: a stopped CORE's keeps the state, a failed fetch's is the fetch's fault. -/
theorem step_eq_commit (s : State) :
    ∃ r, step s = commit s r ∧ SupportedResult (fun t => t.fault = s.fault) r := by
  cases running : s.running with
  | false => exact ⟨.ok s, step_of_stopped running, rfl⟩
  | true =>
    cases fetched : s.fetch with
    | error k =>
      have supported := fetch_supported s
      rw [fetched] at supported
      exact ⟨.error k, step_of_fetch_error running fetched, supported⟩
    | ok w =>
      have runs : step s = exec (decode s.cfg.opcodeMap w) s := by simp [step, running, fetched]
      rw [runs]
      exact exec_eq_commit _ s

/-- Settles O9: a step is a commit, and a commit answers a next state. -/
theorem everyStepAnswersANextState : Obligations.EveryStepAnswersANextState := by
  intro s
  obtain ⟨r, committed, -⟩ := step_eq_commit s
  rw [committed]
  exact commit_total s r

/-- A step that puts a record into an empty FAULT is the entry of that fault, and the fault is not
UnsupportedOperation. -/
theorem eq_raise_of_step {s t : State} {r : FaultRecord} (clear : s.fault = none) (h : step s = .next t)
    (faulted : t.fault = some r) :
    ∃ k, t = s.raise k ∧ r = ⟨k, s.pc⟩ ∧ ∀ op, k ≠ .unsupportedOperation op := by
  obtain ⟨result, committed, supported⟩ := step_eq_commit s
  obtain rfl | ⟨k, rfl, rfl⟩ := commit_eq_next.1 (committed.symm.trans h)
  · have kept : t.fault = s.fault := supported
    simp [kept, clear] at faulted
  · exact ⟨k, rfl, (Option.some.inj faulted).symm, supported⟩

/-- Settles O10: the entry of a fault writes RUNNING and FAULT alone. -/
theorem faultsArePrecise : Obligations.FaultsArePrecise := by
  intro s t r clear h faulted
  obtain ⟨k, rfl, rfl, -⟩ := eq_raise_of_step clear h faulted
  exact ⟨rfl, rfl⟩

/-- Settles O11: the ALU instructions name keys of the ALU's table alone, and nothing else raises it. -/
theorem unsupportedOperationIsNeverRaised : Obligations.UnsupportedOperationIsNeverRaised := by
  intro s t r clear h faulted
  obtain ⟨k, -, rfl, supported⟩ := eq_raise_of_step clear h faulted
  exact supported

end Sys2Proof.Machine
end

section
/-! PROOF of O5, O12, O18, O19, O20: the engine's step, load and run. The loaded state is the reset state with the image's
bytes in memory, or with the fault of an oversized image entered (`load_of_lt`). A run is a sequence of steps
(`run_succ_of_step`), and one from an empty FAULT is safe while FAULT stays empty. -/

namespace Sys2Proof.Machine

/-! ### One step -/

/-- Settles O5: the fetch of such a state is its window. -/
theorem stepRunsTheDecodedInstruction : Obligations.StepRunsTheDecodedInstruction :=
  fun _ _ => step_of_fetches

/-- Settles O12, over the cases of a step: a failed fetch and a faulting instruction leave a record, and of the completed
instructions HLT alone clears RUNNING. -/
theorem haltedIsReachedOnlyByHlt : Obligations.HaltedIsReachedOnlyByHlt := by
  intro s t running clear h
  constructor
  · rintro ⟨stopped, unfaulted⟩
    obtain ⟨idle, -⟩ | ⟨-, k, -, rfl⟩ | ⟨w, fetched, executed⟩ := step_cases h
    · simp [running] at idle
    · simp at unfaulted
    · obtain done | ⟨k, rfl⟩ := exec_cases executed
      · obtain same | ⟨hlt, -⟩ := done.running_cases
        · simp [same, running] at stopped
        · exact ⟨w, fetched, hlt⟩
      · simp at unfaulted
  · rintro ⟨w, fetched, decoded⟩
    rw [step_of_fetches fetched, decoded, hltStopsWithoutAFault] at h
    cases h
    exact ⟨rfl, clear⟩

/-! ### Load -/

theorem load_of_le {image : List Byte} (fits : image.length ≤ 256) (s : State) :
    s.load image = s.setMem (s.mem.writeBytes 0 image) := if_pos fits

/-- Loading an oversized image enters its fault (spec/70_reset_and_hazards.md R103), whose pc 0 is the reset pc. -/
theorem load_of_lt {image : List Byte} (oversized : 256 < image.length) (c : Config) :
    (State.resetWith c).load image = (State.resetWith c).raise (.outOfRangeAccess (.load image.length)) :=
  if_neg oversized.not_ge

/-- Inside the image the last write to a cell is the image's byte, and behind it the memory is still empty. -/
theorem load_readByte {image : List Byte} (fits : image.length ≤ 256) (c : Config) (a : Nat) :
    ((State.resetWith c).load image).readByte a = image.getD a 0 := by
  have range : 0 + image.length ≤ memSize := by simpa using fits
  rw [load_of_le fits, State.setMem_readByte]
  refine (Memory.read_writeBytes Memory.wf_nil range a).trans ?_
  by_cases inside : a < image.length
  · exact if_pos ⟨a.zero_le, by omega⟩
  · rw [if_neg (by omega), List.getD_eq_default _ _ (not_lt.1 inside)]
    rfl

/-- Settles O18: an image that fits is a write of memory alone, and an oversized one leaves a stopped CORE. -/
theorem loadPlacesTheImage : Obligations.LoadPlacesTheImage := by
  refine fun c image => ⟨fun fits => ⟨fun a _ => load_readByte fits c a, ?_⟩, fun oversized => ?_⟩
  · rw [load_of_le fits]
    rfl
  · rw [load_of_lt oversized]
    exact ⟨rfl, run_of_stopped (State.raise_running _ _)⟩

theorem resetWith_inv {c : Config} (injective : c.opcodeMap.injective) : (State.resetWith c).Inv where
  memory := Memory.wf_nil
  config := injective
  flags := List.mem_cons_self
  latch := by simp [State.resetWith]
  fault := by simp [State.resetWith]

/-- Another memory in canonical form keeps the invariant. -/
theorem State.Inv.setMem {s : State} (hs : s.Inv) {m : Memory} (hm : m.wf) : (s.setMem m).Inv where
  memory := hm
  config := hs.config
  flags := hs.flags
  latch := hs.latch
  fault := hs.fault

/-- Settles O19: the writes of an image that fits keep the memory's form, and a fault entry keeps the invariant. -/
theorem loadMeetsTheInvariant : Obligations.LoadMeetsTheInvariant := by
  intro c image injective
  have reset := resetWith_inv injective
  obtain fits | oversized := le_or_gt image.length 256
  · rw [load_of_le fits]
    exact reset.setMem (Memory.writeBytes_wf reset.memory (by simpa using fits))
  · rw [load_of_lt oversized]
    exact reset.raise _

/-! ### Run -/

/-- A run begins with one step, also where that step is the idle one of a stopped CORE. -/
theorem run_succ_of_step {s t : State} (h : step s = .next t) (n : Nat) : run (n + 1) s = run n t := by
  cases running : s.running with
  | true => simp [run, running, h]
  | false =>
    obtain rfl : s = t := by simpa [step_of_stopped running] using h
    rw [run_of_stopped running, run_of_stopped running]

/-- A run ends with one step. -/
theorem step_run (n : Nat) (s : State) : step (run n s) = .next (run (n + 1) s) := by
  induction n generalizing s with
  | zero =>
    obtain ⟨t, h⟩ := everyStepAnswersANextState s
    rw [run_succ_of_step h]
    exact h
  | succ n ih =>
    obtain ⟨t, h⟩ := everyStepAnswersANextState s
    rw [run_succ_of_step h, run_succ_of_step h]
    exact ih t

theorem safeStep_run_iff {n : Nat} {s : State} : SafeStep (run n s) ↔ (run (n + 1) s).fault = none := by
  simp [SafeStep, step_run]

theorem status_eq_faulted {s : State} {r : FaultRecord} :
    s.status = .faulted r ↔ s.running = false ∧ s.fault = some r := by
  unfold State.status
  cases s.running <;> cases s.fault <;> simp

/-- A run from an empty FAULT is safe when FAULT stays empty: the step that fills it also clears RUNNING. -/
theorem safeRun_iff {s : State} (clear : s.fault = none) : SafeRun s ↔ ∀ n, (run n s).fault = none := by
  constructor
  · intro safe n
    induction n with
    | zero => exact clear
    | succ n ih =>
      refine Option.eq_none_iff_forall_ne_some.2 fun r faulted => ?_
      obtain ⟨k, entry, -, -⟩ := eq_raise_of_step ih (step_run n s) faulted
      exact safe (n + 1) r (status_eq_faulted.2 ⟨by rw [entry, State.raise_running], faulted⟩)
  · intro unfaulted n r status
    obtain ⟨-, faulted⟩ := status_eq_faulted.1 status
    simp [unfaulted n] at faulted

/-- Settles O20: each step's FAULT is that of the run one step longer, and the run of no step starts with none. -/
theorem safeRunIsEveryStepSafe : Obligations.SafeRunIsEveryStepSafe := by
  intro s clear
  simp only [safeRun_iff clear, safeStep_run_iff]
  refine ⟨fun all n => all (n + 1), fun later n => ?_⟩
  cases n with
  | zero => exact clear
  | succ n => exact later n

end Sys2Proof.Machine
end
